-- ==== Sys2Proof/Word.lean ====
section
/-! DEFINITION. The bit vectors of the block: the widths that R21 to R27, R70 and R73 of spec/ give its
registers and the fields of its command word. The widths that are parameters of R6 are fields of `Config`. Bit `i` of a vector has weight 2^i (R8), which is `getLsbD i`. -/

namespace Sys2Proof

/-- A segment pattern, a position mask, a table entry, the fault register (8 bits). -/
abbrev Byte := BitVec 8

/-- A command word (R70: one 24-bit word). -/
abbrev Cmd := BitVec 24

/-- The contents of one DIG register, and the operand of ENCD (4 bits, R26, R73). -/
abbrev DigitReg := BitVec 4

/-- A digit position: the contents of PH and the operand of ENCP (2 bits, R24, R73). -/
abbrev PosIx := BitVec 2

/-- The operand of DECOMP: the field V of the command word (14 bits, R70, R73). -/
abbrev Value := BitVec 14

end Sys2Proof
end

