-- ==== Sys2Proof/Config.lean ====
section
/-! DEFINITION. The parameters of R6 and the free values the spec leaves open.
Every parameter of R6 is a field of `Config`: State carries one `Config`, no step changes it, and a statement about
every state holds for every value of the parameters (R7). The values R6 gives them are in Machine/Tables.lean. -/

namespace Sys2Proof

/-- The seven segments of a digit (R6, R80). -/
inductive Segment where
  | a | b | c | d | e | f | g
  deriving DecidableEq, Repr

/-- The row of SEG_MAP a segment has. -/
def Segment.index : Segment → Fin 7
  | .a => 0 | .b => 1 | .c => 2 | .d => 3 | .e => 4 | .f => 5 | .g => 6

/-- The command the host issues at a refresh tick (R6 REFRESH_OP, R154). -/
inductive RefreshOp where
  | phase | frame
  deriving DecidableEq, Repr

/-- The parameters of the block (R6, R34). Their constraints are `Config.WellFormed`. -/
structure Config where
  /-- NUM_DIGITS: how many digit positions a frame has (R6). -/
  numDigits : Nat
  /-- DIGIT_BITS: the segment pattern of each digit 0 to 9 (R120). -/
  digitBits : Vector Byte 10
  /-- SEG_MAP: the pattern bit that drives each segment a to g (R80). -/
  segMap : Vector (Fin 7) 7
  /-- DIGIT_POS: the position mask of each index 0 to 3 (R123). -/
  digitPos : Vector Byte 4
  /-- DP_INDEX: the position whose decimal point is lit (R144, R145). -/
  dpIndex : PosIx
  /-- SAMPLE_IN_TIME_MODE (R146). -/
  sampleInTimeMode : Bool
  /-- REFRESH_OP (R154). -/
  refreshOp : RefreshOp
  /-- T_REFRESH in microseconds: a contract on the host, which no step reads (R206). -/
  tRefreshUs : Nat
  /-- T_SETTLE in microseconds: a contract on the host, which no step reads (R206). -/
  tSettleUs : Nat
  /-- W_MIN: the width of the port MINUTES, in bits (R31). -/
  wMin : Nat
  /-- W_SEC: the width of the port SECONDS, in bits (R31). -/
  wSec : Nat
  /-- W_VC: the width of the port VOLT_CODE, in bits (R31). -/
  wVc : Nat
  /-- W_VAL: the width of the register VAL, in bits (R25). -/
  wVal : Nat
  /-- CHAIN_LEN: the length of the downstream shift chain, in bits (R180). -/
  chainLen : Nat
  deriving DecidableEq, Repr

/-- The free value of which CHAIN holds the low CHAIN_LEN bits after the first reset (R184: any value). Log entry 2. -/
opaque Config.powerUpChain : Nat

/-- The free value of which OUT holds the low CHAIN_LEN bits after the first reset (R184, R202). Log entry 2. -/
opaque Config.powerUpOut : Nat

/-- The free value the port SHOW_VOLT holds after the first reset (R192). Log entry 3. -/
opaque Config.initialShowVolt : Bool

/-- The free value of which the port MINUTES holds the low bits after the first reset (R192). Log entry 3. -/
opaque Config.initialMinutes : Nat

/-- The free value of which the port SECONDS holds the low bits after the first reset (R192). Log entry 3. -/
opaque Config.initialSeconds : Nat

/-- The free value of which the port VOLT_CODE holds the low bits after the first reset (R192, and item I12 of
spec/93_implementation_defined.md). Log entry 3. -/
opaque Config.initialVoltCode : Nat

/-- What a read of the segment table at an unmapped index would give: R120 gives it no value, and R53 says that such
a read does not happen. Log entry 4. -/
opaque Config.unmappedSegEntry : DigitReg → Byte

end Sys2Proof
end

