-- ==== Sys2Proof/Syntax.lean ====
section
/-! DEFINITION. The nine commands of spec/opcode_table.json (R72). An operand has exactly the width R73 gives it,
so every term of `Instr` is a command the encoding admits. -/

namespace Sys2Proof

/-- One constructor for each row of the opcode table. -/
inductive Instr where
  /-- ENCD d: encode a digit (R122). Digits 10 to 15 are legal encodings (R77). -/
  | encd (d : DigitReg)
  /-- ENCP i: encode a position (R125). -/
  | encp (i : PosIx)
  /-- DPCLR: light the decimal point of SEG (R127). -/
  | dpclr
  /-- SHOUT b: serialize one byte (R101). -/
  | shout (b : Byte)
  /-- WRSR s, m: load two immediate bytes (R104). -/
  | wrsr (seg mask : Byte)
  /-- DECOMP v: split a value into digits (R142). -/
  | decomp (v : Value)
  /-- PHASE: draw one position (R147). -/
  | phase
  /-- FRAME: draw all four positions (R149). -/
  | frame
  /-- LOAD: load the registers SEG and MASK (R105). -/
  | load
  deriving DecidableEq, Repr

end Sys2Proof
end

