-- ==== Sys2Proof/WellFormed.lean ====
section
/-! DEFINITION. What is well formed. A term of `Instr` needs no check: its operand types are the widths of R73. The
checks are on the parameters (R6) and on a command as an assembler reads it, with plain numbers for operands (R83). -/

namespace Sys2Proof

/-- The constraints on the parameters. From R6: R121 (bit 7 of every segment pattern is 1), R124 (every position mask has
exactly one bit set, in bits 6 to 0, and the masks are distinct), and SEG_MAP a bijection onto bits 0 to 6. DEDUCED (log
entry 17): PH has 2 bits and DIG and DIGIT_POS four entries (R24, R26, R50), so there are one to four digit positions, and
DP_INDEX is one of them. R6 constrains no width. -/
abbrev Config.WellFormed (c : Config) : Prop :=
  (∀ d : Fin 10, (c.digitBits.get d).getLsbD 7 = true) ∧
  (∀ i : Fin 4, ∃ k : Fin 7, c.digitPos.get i = 1#8 <<< k.val) ∧
  (∀ i j : Fin 4, i ≠ j → c.digitPos.get i ≠ c.digitPos.get j) ∧
  (∀ x y : Fin 7, x ≠ y → c.segMap.get x ≠ c.segMap.get y) ∧
  (1 ≤ c.numDigits ∧ c.numDigits ≤ 4 ∧ c.dpIndex.toNat < c.numDigits)

/-- The values R6 gives the parameters that the source fixes (NUM_DIGITS, DP_INDEX, CHAIN_LEN) and the widths (decision
D12), which the text of the other rules has in numbers. -/
abbrev Config.SourceValues (c : Config) : Prop :=
  c.numDigits = 4 ∧ c.dpIndex = 1#2 ∧ c.chainLen = 16 ∧ c.wMin = 7 ∧ c.wSec = 6 ∧ c.wVc = 14 ∧ c.wVal = 14

/-- One command or pseudo-instruction of an assembler's source, with the numbers as written (R83, R84). -/
inductive SourceCmd where
  | encd (d : Nat)
  | encp (i : Nat)
  | dpclr
  | shout (b : Nat)
  | wrsr (s m : Nat)
  | decomp (v : Nat)
  | phase
  | frame
  | load
  | draw (d i : Nat)
  | drawdp (d i : Nat)
  | blank
  | refresh
  deriving DecidableEq, Repr

/-- The operand ranges of R83; the pseudo-instructions have those of their expansions (R84). An operand outside its
range is refused, never truncated. -/
def SourceCmd.wellFormed : SourceCmd → Bool
  | .encd d => decide (d ≤ 15)
  | .encp i => decide (i ≤ 3)
  | .dpclr => true
  | .shout b => decide (b ≤ 255)
  | .wrsr s m => decide (s ≤ 255) && decide (m ≤ 255)
  | .decomp v => decide (v ≤ 16383)
  | .phase => true
  | .frame => true
  | .load => true
  | .draw d i => decide (d ≤ 15) && decide (i ≤ 3)
  | .drawdp d i => decide (d ≤ 15) && decide (i ≤ 3)
  | .blank => true
  | .refresh => true

end Sys2Proof
end

