-- ==== Sys2Proof/Decode.lean ====
section
/-! DEFINITION. The command word: the decoder of R79, total on every 24-bit word, and the encoder of R72 and R83. -/

namespace Sys2Proof

/-- Why a word is illegal. Either way it raises ILLEGAL_CMD (R170). -/
inductive IllegalWord where
  /-- The opcode is 0x0 or 0xA to 0xF (R75). -/
  | reservedOpcode
  /-- A must-be-zero bit of a defined opcode is 1 (R76). -/
  | mustBeZeroBitSet
  deriving DecidableEq, Repr

/-- The bits of `w` under `mbz` are all 0 (R74): `i` is the command, else the word is illegal (R76). -/
def requireZero (w mbz : Cmd) (i : Instr) : Except IllegalWord Instr :=
  if w &&& mbz = 0#24 then .ok i else .error .mustBeZeroBitSet

/-- The opcode field, bits 23..20 (R70). -/
def opField (w : Cmd) : Nat := (w.extractLsb' 20 4).toNat

/-- The cases of R79, by opcode. -/
def decodeOp (op : Nat) (w : Cmd) : Except IllegalWord Instr :=
  match op with
  | 0x1 => requireZero w 0x00FFFF#24 (.encd (w.extractLsb' 16 4))
  | 0x2 => requireZero w 0x0CFFFF#24 (.encp (w.extractLsb' 16 2))
  | 0x3 => requireZero w 0x0FFFFF#24 .dpclr
  | 0x4 => requireZero w 0x0F00FF#24 (.shout (w.extractLsb' 8 8))
  | 0x5 => requireZero w 0x0F0000#24 (.wrsr (w.extractLsb' 8 8) (w.extractLsb' 0 8))
  | 0x6 => requireZero w 0x0FC000#24 (.decomp (w.extractLsb' 0 14))
  | 0x7 => requireZero w 0x0FFFFF#24 .phase
  | 0x8 => requireZero w 0x0FFFFF#24 .frame
  | 0x9 => requireZero w 0x0FFFFF#24 .load
  | _ => .error .reservedOpcode

/-- The decoder of R79. -/
def decode (w : Cmd) : Except IllegalWord Instr := decodeOp (opField w) w

/-- The encoder: the words of R83's table, which are the patterns of R72. -/
def encode : Instr → Cmd
  | .encd d => 0x100000#24 ||| (d.setWidth 24 <<< 16)
  | .encp i => 0x200000#24 ||| (i.setWidth 24 <<< 16)
  | .dpclr => 0x300000#24
  | .shout b => 0x400000#24 ||| (b.setWidth 24 <<< 8)
  | .wrsr seg mask => 0x500000#24 ||| (seg.setWidth 24 <<< 8) ||| mask.setWidth 24
  | .decomp v => 0x600000#24 ||| v.setWidth 24
  | .phase => 0x700000#24
  | .frame => 0x800000#24
  | .load => 0x900000#24

/-- The column `match` of R72's table, by instruction. -/
def Instr.matchBits : Instr → Cmd
  | .encd _ => 0x100000#24
  | .encp _ => 0x200000#24
  | .dpclr => 0x300000#24
  | .shout _ => 0x400000#24
  | .wrsr _ _ => 0x500000#24
  | .decomp _ => 0x600000#24
  | .phase => 0x700000#24
  | .frame => 0x800000#24
  | .load => 0x900000#24

/-- The column `mask` of R72's table, by instruction. -/
def Instr.maskBits : Instr → Cmd
  | .encd _ => 0xF0FFFF#24
  | .encp _ => 0xFCFFFF#24
  | .dpclr => 0xFFFFFF#24
  | .shout _ => 0xFF00FF#24
  | .wrsr _ _ => 0xFF0000#24
  | .decomp _ => 0xFFC000#24
  | .phase => 0xFFFFFF#24
  | .frame => 0xFFFFFF#24
  | .load => 0xFFFFFF#24

/-- The table of R72: the `match` and `mask` of each row, in its order. -/
def opcodeRows : List (Cmd × Cmd) :=
  [(0x100000#24, 0xF0FFFF#24), (0x200000#24, 0xFCFFFF#24), (0x300000#24, 0xFFFFFF#24),
   (0x400000#24, 0xFF00FF#24), (0x500000#24, 0xFF0000#24), (0x600000#24, 0xFFC000#24),
   (0x700000#24, 0xFFFFFF#24), (0x800000#24, 0xFFFFFF#24), (0x900000#24, 0xFFFFFF#24)]

/-- The command word that a row of the opcode table and its number `w` stand for: the table numbers a word as R8 and
R71 do (bit 0 the least significant), and a command is one word of 24 bits. -/
def tableWord (nbits w : Nat) : Cmd := BitVec.ofNat 24 (w % 2 ^ nbits)

/-- The instruction the decoder reads from a table row's word. -/
def decodeTableWord (nbits w : Nat) : Option Instr :=
  match decode (tableWord nbits w) with
  | .ok i => some i
  | .error _ => none

end Sys2Proof
end

