-- ==== Sys2Proof/Machine/Tables.lean ====
section
/-! DEFINITION. The values R6 gives the parameters (R6, R128, R129), and what a place of a given width holds. -/

namespace Sys2Proof.Machine

/-- What a register, a port or a chain of `w` bits holds of a number: its low `w` bits. -/
def lowBits (w v : Nat) : Nat := v % 2 ^ w

/-- The default DIGIT_BITS (R128). -/
def defaultDigitBits : Vector Byte 10 :=
  #v[0xC0#8, 0xF9#8, 0xA4#8, 0xB0#8, 0x99#8, 0x92#8, 0x82#8, 0xF8#8, 0x80#8, 0x90#8]

/-- The default SEG_MAP: a = 0, b = 1, up to g = 6 (R6, R128). -/
def defaultSegMap : Vector (Fin 7) 7 := #v[0, 1, 2, 3, 4, 5, 6]

/-- The default DIGIT_POS (R129). -/
def defaultDigitPos : Vector Byte 4 := #v[0x01#8, 0x02#8, 0x04#8, 0x08#8]

/-- The parameters at the values of R6: those the source fixes, the widths, and the defaults of the others. -/
def defaultConfig : Config where
  numDigits := 4
  digitBits := defaultDigitBits
  segMap := defaultSegMap
  digitPos := defaultDigitPos
  dpIndex := 1#2
  sampleInTimeMode := false
  refreshOp := .phase
  tRefreshUs := 4000
  tSettleUs := 4000
  wMin := 7
  wSec := 6
  wVc := 14
  wVal := 14
  chainLen := 16

end Sys2Proof.Machine
end

