-- ==== Sys2Proof/Machine/State.lean ====
section
/-! DEFINITION. The state: the block's registers, lines and output event sequence (R20), the four input ports (R31), the
downstream device (R180), and what the environment does next (R60, R188, R192). All of it is plain data. -/

namespace Sys2Proof.Machine

/-- The three output lines (R29). -/
inductive Line where
  | latch | clk | data
  deriving DecidableEq, Repr

/-- An output event (R10, R36). -/
inductive Event where
  /-- `Pin(L, b)`: drive line L to level b (R30). -/
  | pin (l : Line) (b : Bool)
  /-- `SampleReq`: ask the sampler for one voltage sample (R37). -/
  | sampleReq
  deriving DecidableEq, Repr

/-- The levels of the three output lines (R29). -/
@[ext]
structure Lines where
  latch : Bool
  clk   : Bool
  data  : Bool
  deriving DecidableEq, Repr

/-- The downstream shift-register pair (R180): two registers of CHAIN_LEN bits, each held as the number its bits spell. The
width is a parameter, and `State.Inv` says that it holds. -/
@[ext]
structure Device where
  /-- CHAIN, the shifting stage. -/
  chain : Nat
  /-- OUT, the latched stage. -/
  out   : Nat
  deriving DecidableEq, Repr

/-- The four input ports (R31), the numbers they hold. Their widths W_MIN, W_SEC and W_VC are parameters, and `State.Inv` says
that they hold. -/
@[ext]
structure Inputs where
  showVolt : Bool
  minutes  : Nat
  seconds  : Nat
  voltCode : Nat
  deriving DecidableEq, Repr

/-- A write of one input port by its writer (R31, R60). A port takes the bits it has room for. -/
inductive PortWrite where
  | showVolt (b : Bool)
  | minutes (m : Nat)
  | seconds (x : Nat)
  | voltCode (c : Nat)
  deriving DecidableEq, Repr

/-- One thing the environment does to the block, between two commands (R61, R190). -/
inductive Stimulus where
  /-- The host presents a command word (R188). -/
  | command (w : Cmd)
  /-- A refresh tick: the host issues the REFRESH_OP command (R154). -/
  | tick
  /-- The host asserts reset (R200). -/
  | reset
  /-- The host presents reset and a command together (R174). -/
  | resetWithCommand (w : Cmd)
  /-- An input writer changes its port (R32, R192). -/
  | write (p : PortWrite)
  deriving DecidableEq, Repr

/-- Why the machine stops. The spec has no stop: a command's fault sets a bit of FLT and the block accepts the next
command (R171, R173). So there is no constructor, and no step can answer a fault. -/
inductive Fault
  deriving DecidableEq, Repr

/-- Why the model refuses. -/
inductive Refusal where
  /-- Raised by `exec` for an instruction with no meaning in the model; no arm raises it. Safe: the run stops. -/
  | notModelled (mnemonic : String)
  deriving DecidableEq, Repr

/-- The whole state. -/
@[ext]
structure State where
  /-- The parameters of R6: configuration, fixed for the life of the block (R34), not the block's state (R20). -/
  cfg    : Config
  /-- SEG, the segment pattern (R22). -/
  seg    : Byte
  /-- MASK, the position mask (R23). -/
  mask   : Byte
  /-- PH, the phase counter (R24). -/
  ph     : PosIx
  /-- VAL, the value to display: a number of W_VAL bits (R25). -/
  val    : Nat
  /-- DIG[0] to DIG[3], thousands first (R26). -/
  dig    : Vector DigitReg 4
  /-- FLT, the sticky fault register (R27). -/
  flt    : Byte
  /-- The levels of LATCH, CLK and DATA (R29). -/
  lines  : Lines
  /-- The output event sequence, oldest first (R36). -/
  events : List Event
  /-- The input ports (R31), which the block never writes (R32). -/
  inputs : Inputs
  /-- The downstream device (R180), which the block cannot read (R179). -/
  dev    : Device
  /-- What the environment does next, oldest first: the waiting of R188 is at the host. -/
  env    : List Stimulus
  deriving DecidableEq, Repr

/-- The three events of reset (R40). -/
def resetEvents : List Event := [.pin .latch true, .pin .clk false, .pin .data false]

/-- The levels of the lines after reset (R40). -/
def resetLines : Lines := ⟨true, false, false⟩

/-- The state right after the first reset (R40, R200, R202), with the parameters at R6's values, the ports and the
device's registers at free values of their widths (R184, R192), and nothing presented yet. -/
def State.reset : State where
  cfg := defaultConfig
  seg := 0xFF#8
  mask := 0x00#8
  ph := 0#2
  val := 0
  dig := #v[0#4, 0#4, 0#4, 0#4]
  flt := 0x00#8
  lines := resetLines
  events := resetEvents
  inputs :=
    ⟨Config.initialShowVolt, lowBits defaultConfig.wMin Config.initialMinutes,
      lowBits defaultConfig.wSec Config.initialSeconds, lowBits defaultConfig.wVc Config.initialVoltCode⟩
  dev := ⟨lowBits defaultConfig.chainLen Config.powerUpChain, lowBits defaultConfig.chainLen Config.powerUpOut⟩
  env := []

end Sys2Proof.Machine
end

