-- ==== Sys2Proof/Machine/Operands.lean ====
section
/-! DEFINITION. The operand forms beyond the immediates of the word: the two table reads, the digit registers, and the
four-bit and two-bit indices they take (R50, R52, R87). -/

namespace Sys2Proof.Machine

/-- `LUT_SEG(d)` (R120): the entry of DIGIT_BITS, and a free value at an unmapped index (R50, R53; log entry 4). -/
def lutSeg (c : Config) (d : DigitReg) : Byte :=
  if h : d.toNat < 10 then c.digitBits.get ⟨d.toNat, h⟩ else Config.unmappedSegEntry d

/-- `LUT_POS(i)` (R123): the entry of DIGIT_POS, mapped at every index (R50). -/
def lutPos (c : Config) (i : PosIx) : Byte := c.digitPos.get i.toFin

/-- DIG[k] of a list of four digits (R26). -/
def digitAt (ds : Vector DigitReg 4) (k : PosIx) : DigitReg := ds.get k.toFin

/-- The digit positions a frame draws, in order: 0 to NUM_DIGITS - 1 (R6, R149). -/
def framePositions (c : Config) : List PosIx := (List.range c.numDigits).map (BitVec.ofNat 2)

/-- The position after p: (p + 1) mod NUM_DIGITS (R6, R24, R147). -/
def nextPosition (c : Config) (p : PosIx) : PosIx := BitVec.ofNat 2 ((p.toNat + 1) % c.numDigits)

/-- The pattern bit that drives segment x: SEG_MAP(x) (R80). -/
def segBit (c : Config) (x : Segment) : Nat := (c.segMap.get x.index).val

end Sys2Proof.Machine
end

