-- ==== Sys2Proof/Machine/Device.lean ====
section
/-! DEFINITION. The lines and the downstream device: what an event does to each (R30, R180), what the latched
register lights (R181, R182), and the sequence of values it latches (R183). `n` is CHAIN_LEN (R6). -/

namespace Sys2Proof.Machine

/-- A rising edge: the line was 0 and is driven to 1 (R30). -/
def rising (old new : Bool) : Bool := !old && new

/-- The levels after one event (R30). -/
def lineStep (e : Event) (l : Lines) : Lines :=
  match e with
  | .pin .latch b => { l with latch := b }
  | .pin .clk b => { l with clk := b }
  | .pin .data b => { l with data := b }
  | .sampleReq => l

/-- CHAIN after a rising edge of CLK with `d` on DATA: the low CHAIN_LEN bits of `(CHAIN << 1) | DATA` (R180). -/
def shiftIn (n chain : Nat) (d : Bool) : Nat := lowBits n (2 * chain + d.toNat)

/-- The device after one event, the lines standing at `l` before it (R180). -/
def deviceStep (n : Nat) (e : Event) (l : Lines) (d : Device) : Device :=
  match e with
  | .pin .latch b => if rising l.latch b then { d with out := d.chain } else d
  | .pin .clk b => if rising l.clk b then { d with chain := shiftIn n d.chain l.data } else d
  | .pin .data _ => d
  | .sampleReq => d

/-- The levels after a list of events, in order. -/
def linesAfter : List Event → Lines → Lines
  | [], l => l
  | e :: es, l => linesAfter es (lineStep e l)

/-- The device after a list of events, in order (R61 item 4). -/
def deviceAfter (n : Nat) : List Event → Lines → Device → Device
  | [], _, d => d
  | e :: es, l, d => deviceAfter n es (lineStep e l) (deviceStep n e l d)

/-- The values OUT takes at the latch's rising edges of a list of events, in order: the observation of R183. -/
def latchedValues (n : Nat) : List Event → Lines → Device → List Nat
  | [], _, _ => []
  | e :: es, l, d =>
    match e with
    | .pin .latch b =>
      if rising l.latch b then d.chain :: latchedValues n es (lineStep e l) (deviceStep n e l d)
      else latchedValues n es (lineStep e l) (deviceStep n e l d)
    | .pin .clk _ => latchedValues n es (lineStep e l) (deviceStep n e l d)
    | .pin .data _ => latchedValues n es (lineStep e l) (deviceStep n e l d)
    | .sampleReq => latchedValues n es (lineStep e l) (deviceStep n e l d)

/-- The levels of DATA at the rising edges of CLK of a list of events, in order (R82, R102). -/
def sampledBits : List Event → Lines → List Bool
  | [], _ => []
  | e :: es, l =>
    match e with
    | .pin .clk b => if rising l.clk b then l.data :: sampledBits es (lineStep e l) else sampledBits es (lineStep e l)
    | .pin .latch _ => sampledBits es (lineStep e l)
    | .pin .data _ => sampledBits es (lineStep e l)
    | .sampleReq => sampledBits es (lineStep e l)

/-- The segment lines: OUT[15:8] (R181). -/
def segLines (out : Nat) : Byte := BitVec.ofNat 8 (out / 2 ^ 8)

/-- The digit-select lines: OUT[7:0] (R181). -/
def selLines (out : Nat) : Byte := BitVec.ofNat 8 out

/-- Position i is selected (R182). -/
def selected (c : Config) (out : Nat) (i : PosIx) : Bool := selLines out &&& lutPos c i != 0#8

/-- Segment x is lit at position i (R182). -/
def segmentLit (c : Config) (out : Nat) (i : PosIx) (x : Segment) : Bool :=
  selected c out i && !(segLines out).getLsbD (segBit c x)

/-- The decimal point is lit at position i (R182). -/
def pointLit (c : Config) (out : Nat) (i : PosIx) : Bool :=
  selected c out i && !(segLines out).getLsbD 7

end Sys2Proof.Machine
end

