-- ==== Sys2Proof/Machine/Flags.lean ====
section
/-! DEFINITION. The fault register FLT (R27). The block has no other flag: no command sets one as a side effect of
computing a value (R33). -/

namespace Sys2Proof.Machine

/-- The two fault causes (R170). -/
inductive FaultCode where
  | illegalCmd
  | digitRange
  deriving DecidableEq, Repr

/-- The cause code, which is the number of its bit in FLT (R170). -/
def faultBit : FaultCode → Nat
  | .illegalCmd => 0
  | .digitRange => 1

/-- FLT with the bit of a cause set; the others keep their values (R27, R171). -/
def setFault (c : FaultCode) (flt : Byte) : Byte := flt ||| (1#8 <<< faultBit c)

/-- The bit of a cause in FLT. -/
def faultSet (c : FaultCode) (flt : Byte) : Bool := flt.getLsbD (faultBit c)

end Sys2Proof.Machine
end

