-- ==== Sys2Proof/Machine/Ops.lean ====
section
/-! DEFINITION. The operations the commands share: emitting events, raising a fault, the serializer and the load, the
decimal point, the value and its digits, drawing one position, and reset. -/

namespace Sys2Proof.Machine

/-- `emit(list)` (R10): the events are appended to the output event sequence, and reach the lines and the device in
order (R30, R61 item 4). -/
def emit (es : List Event) (s : State) : State :=
  { s with
    lines := linesAfter es s.lines
    dev := deviceAfter s.cfg.chainLen es s.lines s.dev
    events := s.events ++ es }

/-- `raise Fault(code)` (R171): the one shared way a command faults. It sets the bit of FLT and nothing else. There is
no vector, no saved state and no return (R173), so the block goes on to its next command. -/
def raiseFault (c : FaultCode) (s : State) : State := { s with flt := setFault c s.flt }

/-- The three events that send one bit (R100). -/
def bitEvents (b : Bool) : List Event := [.pin .data b, .pin .clk false, .pin .clk true]

/-- `serBits(b)` (R100): 24 events, most significant bit first. -/
def serBits (b : Byte) : List Event :=
  [7, 6, 5, 4, 3, 2, 1, 0].flatMap fun k => bitEvents (b.getLsbD k)

/-- `load(seg, mask)` (R103): 50 events. -/
def loadEvents (seg mask : Byte) : List Event :=
  [.pin .latch false] ++ serBits seg ++ serBits mask ++ [.pin .latch true]

/-- `dpClear(s)` (R126). -/
def dpClear (s : Byte) : Byte := s &&& 0x7F#8

/-- `value(sv, mi, se, vc)` (R140), computed exactly; R155 says that it fits VAL at the widths of R6. -/
def value (p : Inputs) : Nat :=
  if p.showVolt then p.voltCode else p.minutes * 100 + p.seconds

/-- `decomp(v)` (R141): each digit is a remainder by 10 after successive divisions by 10. -/
def decompDigits (v : Nat) : Vector DigitReg 4 :=
  let v1 := v / 10
  let v2 := v1 / 10
  let v3 := v2 / 10
  #v[BitVec.ofNat 4 (v3 % 10), BitVec.ofNat 4 (v2 % 10), BitVec.ofNat 4 (v1 % 10), BitVec.ofNat 4 (v % 10)]

/-- `VAL <- v` and `DIG <- decomp(v)` (R142, R147, R149): VAL takes the W_VAL bits it has room for (R25), and DIG holds the
digits of VAL (R26). -/
def setValue (v : Nat) (s : State) : State :=
  { s with val := lowBits s.cfg.wVal v, dig := decompDigits (lowBits s.cfg.wVal v) }

/-- The pattern drawn at position p for digit d: step 3 of R144. -/
def drawPattern (c : Config) (p : PosIx) (d : DigitReg) : Byte :=
  if p = c.dpIndex then dpClear (lutSeg c d) else lutSeg c d

/-- The sample request of position p in mode sv (R144, R146). -/
def sampleEvents (c : Config) (p : PosIx) (sv : Bool) : List Event :=
  if p = c.dpIndex ∧ (sv = true ∨ c.sampleInTimeMode = true) then [.sampleReq] else []

/-- `drawPhase(p, sv)` (R144). -/
def drawPhase (p : PosIx) (sv : Bool) (s : State) : State :=
  let pattern := drawPattern s.cfg p (digitAt s.dig p)
  let position := lutPos s.cfg p
  emit (sampleEvents s.cfg p sv ++ loadEvents pattern position) { s with seg := pattern, mask := position }

/-- The reset input (R40, R200): registers at their reset values, and the three line events, which act on the lines and
on the device as any events do. It touches neither the parameters, nor the ports, nor what the environment does next. -/
def applyReset (s : State) : State :=
  emit resetEvents
    { s with
      seg := 0xFF#8
      mask := 0x00#8
      ph := 0#2
      val := 0
      dig := #v[0#4, 0#4, 0#4, 0#4]
      flt := 0x00#8 }

end Sys2Proof.Machine
end

