-- ==== Sys2Proof/Machine/Encoder.lean ====
section
/-! DEFINITION. The digit encoder's commands: ENCD, ENCP, DPCLR (spec/41_encoder.md). -/

namespace Sys2Proof.Machine

/-- ENCD (R122): SEG takes the digit's pattern, and a digit 10 to 15 faults DIGIT_RANGE. -/
def execEncd (d : DigitReg) (s : State) : Host.Outcome State Fault Refusal :=
  if 10 ≤ d.toNat then .next (raiseFault .digitRange s) else .next { s with seg := lutSeg s.cfg d }

/-- ENCP (R125): MASK takes the position's mask. -/
def execEncp (i : PosIx) (s : State) : Host.Outcome State Fault Refusal :=
  .next { s with mask := lutPos s.cfg i }

/-- DPCLR (R127): bit 7 of SEG is cleared. -/
def execDpclr (s : State) : Host.Outcome State Fault Refusal :=
  .next { s with seg := dpClear s.seg }

end Sys2Proof.Machine
end

