-- ==== Sys2Proof/Machine/Refresh.lean ====
section
/-! DEFINITION. The refresh engine's commands: DECOMP, PHASE, FRAME (spec/42_refresh.md). -/

namespace Sys2Proof.Machine

/-- DECOMP (R142): split an immediate value into digits. -/
def execDecomp (v : Value) (s : State) : Host.Outcome State Fault Refusal :=
  .next (setValue v.toNat s)

/-- PHASE (R147): draw the position PH names, then advance PH mod NUM_DIGITS. The ports are read once, at the start (R11). -/
def execPhase (s : State) : Host.Outcome State Fault Refusal :=
  .next { drawPhase s.ph s.inputs.showVolt (setValue (value s.inputs) s) with ph := nextPosition s.cfg s.ph }

/-- FRAME (R149): draw every position, in order, of one value; PH is neither read nor written. -/
def execFrame (s : State) : Host.Outcome State Fault Refusal :=
  .next ((framePositions s.cfg).foldl (fun t p => drawPhase p s.inputs.showVolt t) (setValue (value s.inputs) s))

end Sys2Proof.Machine
end

