-- ==== Sys2Proof/Machine/Serial.lean ====
section
/-! DEFINITION. The serial output driver's commands: SHOUT, WRSR, LOAD (spec/40_serial.md). -/

namespace Sys2Proof.Machine

/-- SHOUT (R101): serialize one byte. -/
def execShout (b : Byte) (s : State) : Host.Outcome State Fault Refusal :=
  .next (emit (serBits b) s)

/-- WRSR (R104): load two immediate bytes; SEG and MASK are not written. -/
def execWrsr (seg mask : Byte) (s : State) : Host.Outcome State Fault Refusal :=
  .next (emit (loadEvents seg mask) s)

/-- LOAD (R105): load the registers SEG and MASK. -/
def execLoad (s : State) : Host.Outcome State Fault Refusal :=
  .next (emit (loadEvents s.seg s.mask) s)

end Sys2Proof.Machine
end

