-- ==== Sys2Proof/Machine/Dispatch.lean ====
section
/-! DEFINITION. The dispatch: one arm for each command, each a direct call of its meaning. -/

namespace Sys2Proof.Machine

def exec (i : Instr) (s : State) : Host.Outcome State Fault Refusal :=
  match i with
  | .encd d => Sys2Proof.Machine.execEncd d s
  | .encp k => Sys2Proof.Machine.execEncp k s
  | .dpclr => Sys2Proof.Machine.execDpclr s
  | .shout b => Sys2Proof.Machine.execShout b s
  | .wrsr seg mask => Sys2Proof.Machine.execWrsr seg mask s
  | .decomp v => Sys2Proof.Machine.execDecomp v s
  | .phase => Sys2Proof.Machine.execPhase s
  | .frame => Sys2Proof.Machine.execFrame s
  | .load => Sys2Proof.Machine.execLoad s

end Sys2Proof.Machine
end

