-- ==== Sys2Proof/Machine/HostPort.lean ====
section
/-! DEFINITION. The host interface (R188 to R192): what each stimulus of the environment does, and the readback port. -/

namespace Sys2Proof.Machine

/-- `execute(Illegal)` (R79): the word raises ILLEGAL_CMD and has no other effect (R75, R76). -/
def executeIllegal (s : State) : Host.Outcome State Fault Refusal := .next (raiseFault .illegalCmd s)

/-- A command word: decoded, then run (R79, R188). -/
def runWord (w : Cmd) (s : State) : Host.Outcome State Fault Refusal :=
  match decode w with
  | .ok i => exec i s
  | .error _ => executeIllegal s

/-- The command a refresh tick issues (R154). -/
def refreshInstr : RefreshOp → Instr
  | .phase => .phase
  | .frame => .frame

/-- A writer changes its port, which takes the bits it has room for; the other ports keep their values (R31, R54). -/
def writePort (p : PortWrite) (s : State) : State :=
  match p with
  | .showVolt b => { s with inputs := { s.inputs with showVolt := b } }
  | .minutes m => { s with inputs := { s.inputs with minutes := lowBits s.cfg.wMin m } }
  | .seconds x => { s with inputs := { s.inputs with seconds := lowBits s.cfg.wSec x } }
  | .voltCode c => { s with inputs := { s.inputs with voltCode := lowBits s.cfg.wVc c } }

/-- The host presents a word before what the environment does next. -/
def presentWord (w : Cmd) (s : State) : State := { s with env := .command w :: s.env }

/-- One stimulus, already taken from the environment's list. Reset presented with a command takes effect first, and the
command after it (R174). -/
def respond (x : Stimulus) (s : State) : Host.Outcome State Fault Refusal :=
  match x with
  | .command w => runWord w s
  | .tick => runWord (encode (refreshInstr s.cfg.refreshOp)) s
  | .reset => .next (applyReset s)
  | .resetWithCommand w => .next (presentWord w (applyReset s))
  | .write p => .next (writePort p s)

/-- A stimulus as the single things it stands for: reset presented with a command is reset, then the command (R174). -/
def Stimulus.parts : Stimulus → List Stimulus
  | .command w => [.command w]
  | .tick => [.tick]
  | .reset => [.reset]
  | .resetWithCommand w => [.reset, .command w]
  | .write p => [.write p]

/-- The effects of a list of stimuli, in order, each on the state the ones before it left (R61). -/
def respondAll : List Stimulus → State → Host.Outcome State Fault Refusal
  | [], s => .next s
  | x :: xs, s =>
    match respond x s with
    | .next t => respondAll xs t
    | .fault r => .fault r
    | .refused r => .refused r

/-- One step: the environment's first stimulus takes effect (R61 item 1). With none, the block is idle and keeps all its
state (R187). -/
def stepEnv (s : State) : Host.Outcome State Fault Refusal :=
  match s.env with
  | [] => .next s
  | x :: rest => respond x { s with env := rest }

/-- What the readback port shows: the registers and the lines (R39). -/
structure Readback where
  seg   : Byte
  mask  : Byte
  ph    : PosIx
  val   : Nat
  dig   : Vector DigitReg 4
  flt   : Byte
  lines : Lines
  deriving DecidableEq, Repr

/-- The readback port: a view of the state between commands, with no side effect (R39). -/
def readback (s : State) : Readback := ⟨s.seg, s.mask, s.ph, s.val, s.dig, s.flt, s.lines⟩

end Sys2Proof.Machine
end

