-- ==== Sys2Proof/Machine/Step.lean ====
section
/-! DEFINITION. The step function and the placing of a command word where the next step takes it. -/

namespace Sys2Proof.Machine

/-- One step of the machine (see `stepEnv`). -/
def step (s : State) : Host.Outcome State Fault Refusal := stepEnv s

/-- `s` with a table row's word presented as the next command (R188). The block stores no program (R66, R203). -/
def State.withFetchWord (s : State) (nbits w : Nat) : State := presentWord (tableWord nbits w) s

end Sys2Proof.Machine
end

