-- ==== Sys2Proof/Machine/Assembler.lean ====
section
/-! DEFINITION. The assembler of R83 and the pseudo-instructions of R84. Source text is a list of characters. -/

namespace Sys2Proof.Machine

/-- DRAW d, i (R84). -/
def drawCmds (d : DigitReg) (i : PosIx) : List Instr := [.encd d, .encp i, .load]

/-- DRAWDP d, i (R84). -/
def drawdpCmds (d : DigitReg) (i : PosIx) : List Instr := [.encd d, .dpclr, .encp i, .load]

/-- BLANK (R84). -/
def blankCmds : List Instr := [.wrsr 0xFF#8 0x00#8]

/-- REFRESH (R84). -/
def refreshCmds (op : RefreshOp) : List Instr := [refreshInstr op]

/-- The commands a source command stands for, its operands in range. -/
def expand (op : RefreshOp) : SourceCmd → List Instr
  | .encd d => [.encd (BitVec.ofNat 4 d)]
  | .encp i => [.encp (BitVec.ofNat 2 i)]
  | .dpclr => [.dpclr]
  | .shout b => [.shout (BitVec.ofNat 8 b)]
  | .wrsr s m => [.wrsr (BitVec.ofNat 8 s) (BitVec.ofNat 8 m)]
  | .decomp v => [.decomp (BitVec.ofNat 14 v)]
  | .phase => [.phase]
  | .frame => [.frame]
  | .load => [.load]
  | .draw d i => drawCmds (BitVec.ofNat 4 d) (BitVec.ofNat 2 i)
  | .drawdp d i => drawdpCmds (BitVec.ofNat 4 d) (BitVec.ofNat 2 i)
  | .blank => blankCmds
  | .refresh => refreshCmds op

/-- The words of a source command, or a refusal of an operand outside its range (R83). -/
def assembleCmd (op : RefreshOp) (c : SourceCmd) : Option (List Cmd) :=
  if c.wellFormed then some ((expand op c).map encode) else none

/-- The pieces of a text between the separators. -/
def splitAtChar (sep : Char) : List Char → List (List Char)
  | [] => [[]]
  | c :: cs =>
    if c = sep then [] :: splitAtChar sep cs
    else
      match splitAtChar sep cs with
      | [] => [[c]]
      | w :: ws => (c :: w) :: ws

/-- A space, a tab or a carriage return. -/
def isBlankChar (c : Char) : Bool := c = ' ' || c = '\t' || c = '\r'

/-- The text without blanks at its two ends. -/
def trimBlanks (cs : List Char) : List Char :=
  ((cs.dropWhile isBlankChar).reverse.dropWhile isBlankChar).reverse

/-- The value of a digit in a base up to 16. -/
def charDigit (base : Nat) (c : Char) : Option Nat :=
  let n := c.toNat
  let v :=
    if 48 ≤ n ∧ n ≤ 57 then n - 48
    else if 65 ≤ n ∧ n ≤ 70 then n - 55
    else if 97 ≤ n ∧ n ≤ 102 then n - 87
    else 16
  if v < base then some v else none

/-- The number the digits spell, on top of the value already read. -/
def digitsValue (base : Nat) : Nat → List Char → Option Nat
  | acc, [] => some acc
  | acc, c :: cs =>
    match charDigit base c with
    | some v => digitsValue base (acc * base + v) cs
    | none => none

/-- A number: decimal, or hexadecimal after 0x (R83). -/
def parseNumber (cs : List Char) : Option Nat :=
  match trimBlanks cs with
  | [] => none
  | ['0', 'x'] => none
  | '0' :: 'x' :: ds => digitsValue 16 0 ds
  | ds => digitsValue 10 0 ds

/-- The operands of a command: numbers separated by commas, or nothing (R83). -/
def parseOperands (cs : List Char) : Option (List Nat) :=
  match trimBlanks cs with
  | [] => some []
  | rest => (splitAtChar ',' rest).mapM parseNumber

/-- The command a mnemonic and its operands name, or none (R83, R84). -/
def sourceCmd (m : List Char) (ops : List Nat) : Option SourceCmd :=
  match ops with
  | [] =>
    if m = ['D', 'P', 'C', 'L', 'R'] then some .dpclr
    else if m = ['P', 'H', 'A', 'S', 'E'] then some .phase
    else if m = ['F', 'R', 'A', 'M', 'E'] then some .frame
    else if m = ['L', 'O', 'A', 'D'] then some .load
    else if m = ['B', 'L', 'A', 'N', 'K'] then some .blank
    else if m = ['R', 'E', 'F', 'R', 'E', 'S', 'H'] then some .refresh
    else none
  | [x] =>
    if m = ['E', 'N', 'C', 'D'] then some (.encd x)
    else if m = ['E', 'N', 'C', 'P'] then some (.encp x)
    else if m = ['S', 'H', 'O', 'U', 'T'] then some (.shout x)
    else if m = ['D', 'E', 'C', 'O', 'M', 'P'] then some (.decomp x)
    else none
  | [x, y] =>
    if m = ['W', 'R', 'S', 'R'] then some (.wrsr x y)
    else if m = ['D', 'R', 'A', 'W'] then some (.draw x y)
    else if m = ['D', 'R', 'A', 'W', 'D', 'P'] then some (.drawdp x y)
    else none
  | _ => none

/-- One line of source: a comment runs from a semicolon to the end of the line, and a line with nothing else stands for
no word (R83). A line that is no command is refused. -/
def assembleLine (op : RefreshOp) (line : List Char) : Option (List Cmd) :=
  match trimBlanks (line.takeWhile fun c => c ≠ ';') with
  | [] => some []
  | text =>
    match parseOperands (text.dropWhile fun c => !isBlankChar c) with
    | none => none
    | some ops =>
      match sourceCmd (text.takeWhile fun c => !isBlankChar c) ops with
      | none => none
      | some c => assembleCmd op c

/-- A source text, one command a line (R83): its words in order, or a refusal. -/
def assemble (op : RefreshOp) (text : List Char) : Option (List Cmd) :=
  ((splitAtChar '\n' text).mapM (assembleLine op)).map List.flatten

end Sys2Proof.Machine
end

