-- ==== Sys2Proof/Safety.lean ====
section
/-! DEFINITION. What claims call a good state, a correct run and a host that keeps its duties. -/

namespace Sys2Proof.Machine

/-- `n` steps of the machine: the host's own run of `Sys2Proof.core`. -/
def runSteps (n : Nat) (s : State) : Host.Outcome State Fault Refusal := Host.Core.run Sys2Proof.core n s

/-- No fault has been recorded: R173 takes this as the premise of a claim that a run is correct. -/
def State.noFault (s : State) : Prop := s.flt = 0x00#8

/-- The duties of the input writers (R191): the legal ranges of R31. -/
def Inputs.legal (p : Inputs) : Prop :=
  p.minutes ≤ 99 ∧ p.seconds ≤ 59 ∧ p.voltCode ≤ 330

/-- The invariant between commands: the parameters meet their constraints (R6), FLT bits 7..2 read 0 (R28), DIG holds
the digits of VAL, each 0 to 9 (R26), LATCH is 1 (R106), MASK is 0x00 or an entry of DIGIT_POS (R23, R40), and each line
stands at the level the output event sequence drove it to, whatever it was before (R29). PH is a digit position (R24),
and VAL, the ports and the device's registers keep to their widths (R25, R31, R180). -/
structure State.Inv (s : State) : Prop where
  cfg_wf : s.cfg.WellFormed
  flt_reserved : s.flt &&& 0xFC#8 = 0#8
  dig_of_val : s.dig = decompDigits s.val
  dig_range : ∀ k : PosIx, (digitAt s.dig k).toNat ≤ 9
  latch_high : s.lines.latch = true
  mask_entry : s.mask = 0x00#8 ∨ ∃ i : PosIx, s.mask = lutPos s.cfg i
  lines_of_events : ∀ l : Lines, linesAfter s.events l = s.lines
  ph_range : s.ph.toNat < s.cfg.numDigits
  val_width : s.val < 2 ^ s.cfg.wVal
  ports_width : s.inputs.minutes < 2 ^ s.cfg.wMin ∧ s.inputs.seconds < 2 ^ s.cfg.wSec ∧
    s.inputs.voltCode < 2 ^ s.cfg.wVc
  dev_width : s.dev.chain < 2 ^ s.cfg.chainLen ∧ s.dev.out < 2 ^ s.cfg.chainLen

end Sys2Proof.Machine

namespace Sys2Proof

/-- The host keeps the settle delay and the period under REFRESH_OP (R206, R212): a contract on the host, which no step
depends on. -/
def Config.timingContract (c : Config) : Prop :=
  match c.refreshOp with
  | .phase => c.tSettleUs ≤ c.tRefreshUs
  | .frame => c.numDigits * c.tSettleUs ≤ c.tRefreshUs

/-- The time of a full frame in microseconds, a command's own time left out (R211, R212). -/
def Config.frameTimeUs (c : Config) : Nat :=
  match c.refreshOp with
  | .phase => c.numDigits * c.tRefreshUs
  | .frame => c.numDigits * c.tSettleUs

end Sys2Proof
end

