-- ==== Sys2Proof/Certificates/Slice0/Obligations.lean ====
section
/-! DEFINITION. The statements for the provers, each with the rule of spec/ it formalises. The state in every statement
is any state: any parameters (R6, R7), ports, device contents, lines and environment, reached by a run or not. -/

open Sys2Proof Sys2Proof.Machine

/-! ### Reset -/

/-- R40, R200: what the reset input leaves. The device clause is not R40's: where LATCH stands at 1, as it does between
commands, CHAIN and OUT are kept (R201, the spec's own inference), and where it stands at 0 (power-up, R202) the latch
rises, both by the device model of R180 (log entry 8). -/
def Obligations.ResetSetsTheValuesOfR40 : Prop :=
  ∀ (s : State) (rest : List Stimulus), s.env = .reset :: rest →
    step s = .next { s with
      seg := 0xFF#8
      mask := 0x00#8
      ph := 0#2
      val := 0
      dig := #v[0#4, 0#4, 0#4, 0#4]
      flt := 0x00#8
      lines := ⟨true, false, false⟩
      events := s.events ++ [.pin .latch true, .pin .clk false, .pin .data false]
      dev := if s.lines.latch then s.dev else ⟨s.dev.chain, s.dev.chain⟩
      env := rest }

/-- The model's choice (log entries 2, 3, 5 and 6): `State.reset` is what reset leaves of a block at power-up, with the
parameters at R6's values, the ports and the device at their free values and no event emitted before. That the device keeps its
values through the reset is R201's inference from the device model of R180 (log entry 8). -/
def Obligations.PowerUpResetGivesStateReset : Prop :=
  ∀ s : State, s.cfg = defaultConfig → s.events = [] → s.env = [.reset] → s.inputs = State.reset.inputs →
    s.dev = State.reset.dev → s.lines.latch = true → step s = .next State.reset

/-- The invariant holds at reset, the parameters being at R6's values (log entry 6). The clauses on widths, on PH and
on NUM_DIGITS are log entry 17's, and the one on CHAIN and OUT log entry 8's as well. -/
def Obligations.StateResetMeetsTheInvariant : Prop := State.reset.Inv

/-- R174: reset presented with a command takes effect first, and the command after it. -/
def Obligations.ResetTakesEffectBeforeItsCommand : Prop :=
  ∀ (s : State) (w : Cmd) (rest : List Stimulus), s.env = .resetWithCommand w :: rest →
    ∃ t, step s = .next t ∧ t.env = .command w :: rest ∧
      step { s with env := .reset :: .command w :: rest } = .next t

/-! ### Encoding -/

/-- R72, R79: decoding gives back every command from its word, with every operand value. -/
def Obligations.DecodeOfEncodeIsTheCommand : Prop :=
  ∀ i : Instr, decode (encode i) = .ok i

/-- R72, R74, R79: a command has one word. -/
def Obligations.EncodeOfDecodeIsTheWord : Prop :=
  ∀ (w : Cmd) (i : Instr), decode w = .ok i → encode i = w

/-- R71: a word is a command exactly when it matches the command's row of the table. -/
def Obligations.WordIsTheCommandItsRowMatches : Prop :=
  ∀ (w : Cmd) (j : Instr),
    w &&& j.maskBits = j.matchBits ↔ ∃ i, decode w = .ok i ∧ i.matchBits = j.matchBits

/-- R75, R76, R78: which words are illegal, by which check, and that every other word is a command. -/
def Obligations.EveryWordIsACommandOrIllegal : Prop :=
  ∀ w : Cmd,
    (decode w = .error .reservedOpcode ↔ (w >>> 20).toNat = 0 ∨ 10 ≤ (w >>> 20).toNat) ∧
    (decode w = .error .mustBeZeroBitSet ↔
      ∃ r ∈ opcodeRows, w >>> 20 = r.1 >>> 20 ∧ w &&& r.2 ≠ r.1) ∧
    ((∃ i, decode w = .ok i) ↔ ∃ r ∈ opcodeRows, w &&& r.2 = r.1)

/-- R83 and the worked words of spec/95_test_vectors.md. -/
def Obligations.WorkedWordsDecode : Prop :=
  decode 0x170000#24 = .ok (.encd 7#4) ∧ decode 0x1C0000#24 = .ok (.encd 12#4) ∧
  decode 0x230000#24 = .ok (.encp 3#2) ∧ decode 0x300000#24 = .ok .dpclr ∧
  decode 0x40A500#24 = .ok (.shout 0xA5#8) ∧ decode 0x501202#24 = .ok (.wrsr 0x12#8 0x02#8) ∧
  decode 0x6001FD#24 = .ok (.decomp 509#14) ∧ decode 0x700000#24 = .ok .phase ∧
  decode 0x800000#24 = .ok .frame ∧ decode 0x900000#24 = .ok .load

/-- R83: the word of each source command, and the refusal of an operand outside its range. -/
def Obligations.AssemblerNeverTruncates : Prop :=
  ∀ (op : RefreshOp) (x y : Nat),
    assembleCmd op (.encd x) = (if x ≤ 15 then some [BitVec.ofNat 24 (0x100000 + x * 65536)] else none) ∧
    assembleCmd op (.encp x) = (if x ≤ 3 then some [BitVec.ofNat 24 (0x200000 + x * 65536)] else none) ∧
    assembleCmd op .dpclr = some [0x300000#24] ∧
    assembleCmd op (.shout x) = (if x ≤ 255 then some [BitVec.ofNat 24 (0x400000 + x * 256)] else none) ∧
    assembleCmd op (.wrsr x y) =
      (if x ≤ 255 ∧ y ≤ 255 then some [BitVec.ofNat 24 (0x500000 + x * 256 + y)] else none) ∧
    assembleCmd op (.decomp x) = (if x ≤ 16383 then some [BitVec.ofNat 24 (0x600000 + x)] else none) ∧
    assembleCmd op .phase = some [0x700000#24] ∧
    assembleCmd op .frame = some [0x800000#24] ∧
    assembleCmd op .load = some [0x900000#24]

/-! ### Steps -/

/-- R79, R188: a step whose first stimulus is a word that decodes runs that command on the state without the word. -/
def Obligations.StepRunsTheDecodedCommand : Prop :=
  ∀ (s : State) (w : Cmd) (rest : List Stimulus) (i : Instr), s.env = .command w :: rest → decode w = .ok i →
    step s = exec i { s with env := rest }

/-- R154: a refresh tick issues PHASE where REFRESH_OP is PHASE and FRAME where it is FRAME. -/
def Obligations.TickRunsTheRefreshCommand : Prop :=
  ∀ (s : State) (rest : List Stimulus), s.env = .tick :: rest →
    (s.cfg.refreshOp = .phase → step s = exec .phase { s with env := rest }) ∧
    (s.cfg.refreshOp = .frame → step s = exec .frame { s with env := rest })

/-- R31, R54: a writer changes the whole of its own port, which takes the bits its width has room for, and nothing
else of the machine. That a port takes only the low bits, as many as its width, of a number it has no room for is the
model's choice (log entry 17); a number that fits is taken whole. -/
def Obligations.PortWriteChangesOnlyItsPort : Prop :=
  ∀ (s : State) (p : PortWrite) (rest : List Stimulus), s.env = .write p :: rest →
    ∃ q : Inputs, step s = .next { s with inputs := q, env := rest } ∧
      match p with
      | .showVolt b => q = ⟨b, s.inputs.minutes, s.inputs.seconds, s.inputs.voltCode⟩
      | .minutes m => q = ⟨s.inputs.showVolt, m % 2 ^ s.cfg.wMin, s.inputs.seconds, s.inputs.voltCode⟩
      | .seconds x => q = ⟨s.inputs.showVolt, s.inputs.minutes, x % 2 ^ s.cfg.wSec, s.inputs.voltCode⟩
      | .voltCode c => q = ⟨s.inputs.showVolt, s.inputs.minutes, s.inputs.seconds, c % 2 ^ s.cfg.wVc⟩

/-- R187: with nothing presented the block is idle and keeps all its state. -/
def Obligations.IdleStepKeepsEverything : Prop :=
  ∀ s : State, s.env = [] → step s = .next s

/-- R61, R174: the stimuli take effect one at a time, in order, and none stops the machine. The run that consumes a list of
them leaves what `respond` makes of them one after the other, whatever is presented behind them. Reset presented with a
command counts as reset and then the command, two steps (log entry 9). -/
def Obligations.StimuliTakeEffectOneAtATime : Prop :=
  ∀ (xs rest : List Stimulus) (s : State), s.env = xs ++ rest →
    ∃ t, respondAll (xs.flatMap Stimulus.parts) { s with env := [] } = .next t ∧
      runSteps (xs.flatMap Stimulus.parts).length s = .next { t with env := rest }

/-- R29, R36, R180: whatever a step does, its events are appended in order, and the lines and the device change by
those events alone; the parameters never change (R34). What the events do to the device is the model of R180 (log
entry 8). The cut of CHAIN to CHAIN_LEN bits at values other than R180's 16 is log entry 17's reading. -/
def Obligations.EveryStepDrivesLinesAndDeviceByItsEvents : Prop :=
  ∀ s : State, ∃ t es, step s = .next t ∧ t.events = s.events ++ es ∧
    t.lines = linesAfter es s.lines ∧ t.dev = deviceAfter s.cfg.chainLen es s.lines s.dev ∧ t.cfg = s.cfg

/-- R6, R23 to R26, R28, R29, R31, R106, R180: every step keeps the invariant. The clause on PH below NUM_DIGITS, the
bounds on NUM_DIGITS and DP_INDEX in the parameters' constraints, and the widths kept by cutting are the model's
reading (log entry 17); the clause on CHAIN and OUT rests on the device model of R180 as well (log entry 8). -/
def Obligations.EveryStepKeepsTheInvariant : Prop :=
  ∀ s : State, s.Inv → ∃ t, step s = .next t ∧ t.Inv

/-! ### Faults -/

/-- R75, R76, R77, R171: an illegal word, and ENCD of a digit 10 to 15, set their bit of FLT and do nothing else. -/
def Obligations.FaultingWordOnlySetsItsFltBit : Prop :=
  ∀ (s : State) (w : Cmd) (rest : List Stimulus), s.env = .command w :: rest →
    ((w >>> 20).toNat = 0 ∨ 10 ≤ (w >>> 20).toNat →
      step s = .next { s with flt := s.flt ||| 0x01#8, env := rest }) ∧
    ((∃ r ∈ opcodeRows, w >>> 20 = r.1 >>> 20 ∧ w &&& r.2 ≠ r.1) →
      step s = .next { s with flt := s.flt ||| 0x01#8, env := rest }) ∧
    ((∃ d : DigitReg, 10 ≤ d.toNat ∧ w = encode (.encd d)) →
      step s = .next { s with flt := s.flt ||| 0x02#8, env := rest })

/-- R172: the cause table. A word is checked for ILLEGAL_CMD first, DIGIT_RANGE only for a legal ENCD word, and no
other case raises a fault. -/
def Obligations.CauseTableByCommand : Prop :=
  ∀ (s : State) (w : Cmd) (rest : List Stimulus), s.env = .command w :: rest →
    ∃ t, step s = .next t ∧
      (∀ e, decode w = .error e → t.flt = s.flt ||| 0x01#8) ∧
      (∀ d : DigitReg, decode w = .ok (.encd d) → 10 ≤ d.toNat → t.flt = s.flt ||| 0x02#8) ∧
      (∀ i, decode w = .ok i → (∀ d : DigitReg, i = .encd d → d.toNat < 10) → t.flt = s.flt)

/-- R27, R173: a bit of FLT once set stays set until reset. -/
def Obligations.FaultBitsStaySetUntilReset : Prop :=
  ∀ s : State, s.env.head? ≠ some .reset → (∀ w, s.env.head? ≠ some (.resetWithCommand w)) →
    ∃ t, step s = .next t ∧ ∀ k, s.flt.getLsbD k = true → t.flt.getLsbD k = true

/-- R172, R173: a run of commands in which no ENCD has a digit 10 to 15 ends with no fault recorded, if none was
recorded at its start. -/
def Obligations.RunOfUnfaultingCommandsIsCorrect : Prop :=
  ∀ (is : List Instr) (s : State) (rest : List Stimulus), (∀ d : DigitReg, .encd d ∈ is → d.toNat < 10) →
    s.env = is.map (fun i => .command (encode i)) ++ rest → s.noFault →
    ∃ t, runSteps is.length s = .next t ∧ t.noFault ∧ t.env = rest

/-! ### Frames of all nine commands -/

/-- R20 to R29, R32, R34: which commands write each register. Every command completes, and writes no parameter, no
port and nothing of the environment. -/
def Obligations.EachRegisterHasItsWriters : Prop :=
  ∀ (i : Instr) (s : State), ∃ t, exec i s = .next t ∧
    t.cfg = s.cfg ∧ t.inputs = s.inputs ∧ t.env = s.env ∧
    ((∀ d, i ≠ .encd d) → i ≠ .dpclr → i ≠ .phase → i ≠ .frame → t.seg = s.seg) ∧
    ((∀ k, i ≠ .encp k) → i ≠ .phase → i ≠ .frame → t.mask = s.mask) ∧
    ((∀ v, i ≠ .decomp v) → i ≠ .phase → i ≠ .frame → t.val = s.val ∧ t.dig = s.dig) ∧
    (i ≠ .phase → t.ph = s.ph) ∧
    ((∀ d, i ≠ .encd d) → t.flt = s.flt) ∧
    ((∀ b, i ≠ .shout b) → (∀ a m, i ≠ .wrsr a m) → i ≠ .load → i ≠ .phase → i ≠ .frame →
      t.lines = s.lines ∧ t.dev = s.dev ∧ t.events = s.events)

/-- R24: PH is the position the next PHASE draws; PHASE reads it, then adds 1 modulo 4, the number of positions, with no
flag; no other command reads or writes PH. Another number of positions is in PhaseAdvancesPhModuloNumDigits. -/
def Obligations.OnlyPhaseReadsOrWritesPh : Prop :=
  ∀ (i : Instr) (s : State), ∃ t, exec i s = .next t ∧
    (i = .phase →
      t.mask = s.cfg.digitPos.get s.ph.toFin ∧ t.flt = s.flt ∧
      (s.cfg.numDigits = 4 → t.ph.toNat = (s.ph.toNat + 1) % 4)) ∧
    (i ≠ .phase → t.ph = s.ph ∧ ∀ q : PosIx, exec i { s with ph := q } = .next { t with ph := q })

/-- R32, R140: only PHASE and FRAME read the ports, time mode does not read VOLT_CODE, and voltage mode reads neither
MINUTES nor SECONDS. -/
def Obligations.PortsAreReadOnlyWhereTheRulesSay : Prop :=
  ∀ (i : Instr) (s : State) (q : Inputs), ∃ t, exec i s = .next t ∧
    ((i ≠ .phase ∧ i ≠ .frame) ∨
     (s.inputs.showVolt = false ∧ q = { s.inputs with voltCode := q.voltCode }) ∨
     (s.inputs.showVolt = true ∧ q = { s.inputs with minutes := q.minutes, seconds := q.seconds }) →
      exec i { s with inputs := q } = .next { t with inputs := q })

/-- R213: how many events each command appends. R213 has 200 or 201 for FRAME, which is the clause at NUM_DIGITS = 4;
50 events for each of another number of positions, and the constraints on that number, are the model's reading (log
entry 17). -/
def Obligations.EventCountOfEachCommand : Prop :=
  ∀ (i : Instr) (s : State), s.cfg.WellFormed → ∃ t es, exec i s = .next t ∧ t.events = s.events ++ es ∧
    es.length =
      match i with
      | .encd _ => 0
      | .encp _ => 0
      | .dpclr => 0
      | .decomp _ => 0
      | .shout _ => 24
      | .wrsr _ _ => 50
      | .load => 50
      | .phase =>
        if s.ph = s.cfg.dpIndex ∧ (s.inputs.showVolt = true ∨ s.cfg.sampleInTimeMode = true) then 51 else 50
      | .frame =>
        50 * s.cfg.numDigits + (if s.inputs.showVolt = true ∨ s.cfg.sampleInTimeMode = true then 1 else 0)

/-- R37, R146: only PHASE at position DP_INDEX and FRAME request a sample, in voltage mode or with
SAMPLE_IN_TIME_MODE, and then exactly one. The constraint that DP_INDEX is a position of the frame is the model's
reading (log entry 17). -/
def Obligations.SampleIsRequestedOnlyAtTheDecimalPoint : Prop :=
  ∀ (i : Instr) (s : State), s.cfg.WellFormed → ∃ t es, exec i s = .next t ∧ t.events = s.events ++ es ∧
    es.count .sampleReq =
      if (i = .frame ∨ (i = .phase ∧ s.ph = s.cfg.dpIndex)) ∧
        (s.inputs.showVolt = true ∨ s.cfg.sampleInTimeMode = true) then 1 else 0

/-! ### Digit encoder -/

/-- R122: ENCD. -/
def Obligations.EncdSetsSegOrFaults : Prop :=
  ∀ (d : DigitReg) (s : State),
    (∀ h : d.toNat < 10, exec (.encd d) s = .next { s with seg := s.cfg.digitBits.get ⟨d.toNat, h⟩ }) ∧
    (10 ≤ d.toNat → exec (.encd d) s = .next { s with flt := s.flt ||| 0x02#8 })

/-- R125: ENCP; under the constraints of R124 the mask has exactly one bit set, in bits 6 to 0. -/
def Obligations.EncpSetsMask : Prop :=
  ∀ (i : PosIx) (s : State),
    exec (.encp i) s = .next { s with mask := s.cfg.digitPos.get i.toFin } ∧
    (s.cfg.WellFormed → ∃ k < 7, ∀ j < 8, (s.cfg.digitPos.get i.toFin).getLsbD j = decide (j = k))

/-- R126, R127: DPCLR clears bit 7, keeps bits 6 to 0 and is idempotent. -/
def Obligations.DpclrClearsBitSeven : Prop :=
  ∀ s : State, ∃ p : Byte, exec .dpclr s = .next { s with seg := p } ∧
    p.getLsbD 7 = false ∧ (∀ k < 7, p.getLsbD k = s.seg.getLsbD k) ∧
    exec .dpclr { s with seg := p } = .next { s with seg := p }

/-- R121, R122, R126: after ENCD the decimal point is dark, and a DPCLR after it lights it and keeps the glyph. -/
def Obligations.EncdThenDpclrLightsOnlyThePoint : Prop :=
  ∀ (d : DigitReg) (s : State), s.cfg.WellFormed → d.toNat < 10 →
    ∃ t u, exec (.encd d) s = .next t ∧ exec .dpclr t = .next u ∧
      t.seg.getLsbD 7 = true ∧ u.seg.getLsbD 7 = false ∧ ∀ k < 7, u.seg.getLsbD k = t.seg.getLsbD k

/-! ### Serial output driver and device -/

/-- R30, R180 (the spec's own model of the device, decision D14; log entry 8): the device on one event, with the shift
as arithmetic on CHAIN, `n` being CHAIN_LEN. R180 has 16 in its text; the cut to another `n` is the model's reading
(log entry 17). -/
def Obligations.DeviceActsOnRisingEdgesOnly : Prop :=
  ∀ (n : Nat) (l : Lines) (d : Device),
    (l.clk = false → deviceStep n (.pin .clk true) l d =
      ⟨(2 * d.chain + (if l.data then 1 else 0)) % 2 ^ n, d.out⟩) ∧
    (l.latch = false → deviceStep n (.pin .latch true) l d = ⟨d.chain, d.chain⟩) ∧
    (∀ e, ¬ (e = .pin .clk true ∧ l.clk = false) → ¬ (e = .pin .latch true ∧ l.latch = false) →
      deviceStep n e l d = d)

/-- R100: the 24 events of the serializer, three for each bit from bit 7 down to bit 0. -/
def Obligations.SerializerEventsOfEachBit : Prop :=
  ∀ b : Byte, (serBits b).length = 24 ∧ ∀ k < 8,
    (serBits b)[3 * k]? = some (.pin .data (b.getLsbD (7 - k))) ∧
    (serBits b)[3 * k + 1]? = some (.pin .clk false) ∧
    (serBits b)[3 * k + 2]? = some (.pin .clk true)

/-- R102: the properties of the serializer's events, whatever the levels before them. -/
def Obligations.SerializerRaisesClkEightTimes : Prop :=
  ∀ (b : Byte) (l : Lines),
    (sampledBits (serBits b) l).length = 8 ∧
    (∀ k, 1 ≤ k → k ≤ 8 → (sampledBits (serBits b) l)[k - 1]? = some (b.getLsbD (8 - k))) ∧
    linesAfter (serBits b) l = ⟨l.latch, true, b.getLsbD 0⟩

/-- R82, R103: a load is framed by LATCH and carries 16 bits on DATA, segment pattern first, each byte from bit 7. -/
def Obligations.LoadCarriesSixteenBitsFramedByLatch : Prop :=
  ∀ (seg mask : Byte) (l : Lines),
    (loadEvents seg mask).length = 50 ∧
    (loadEvents seg mask).head? = some (.pin .latch false) ∧
    (loadEvents seg mask).getLast? = some (.pin .latch true) ∧
    (∀ b, (loadEvents seg mask).count (.pin .latch b) = 1) ∧
    sampledBits (loadEvents seg mask) l =
      [seg.getLsbD 7, seg.getLsbD 6, seg.getLsbD 5, seg.getLsbD 4,
       seg.getLsbD 3, seg.getLsbD 2, seg.getLsbD 1, seg.getLsbD 0,
       mask.getLsbD 7, mask.getLsbD 6, mask.getLsbD 5, mask.getLsbD 4,
       mask.getLsbD 3, mask.getLsbD 2, mask.getLsbD 1, mask.getLsbD 0]

/-- R55: OUT keeps its old value through the first 49 events of a load, and takes all its bits at the last. That it
ends at seg : mask, with CHAIN_LEN = 16, is the spec's own inference (R58, R107) from the device model of R180 (log
entry 8). What OUT holds for a chain of another length `n`, the bits of CHAIN above the two bytes as far as it goes,
is the model's reading (log entry 17). -/
def Obligations.LoadCommitsBothBytesAtOnce : Prop :=
  ∀ (seg mask : Byte) (l : Lines) (n : Nat) (d : Device),
    (∀ k < 50, (deviceAfter n ((loadEvents seg mask).take k) l d).out = d.out) ∧
    (deviceAfter n (loadEvents seg mask) l d).out = (65536 * d.chain + (seg ++ mask).toNat) % 2 ^ n ∧
    (deviceAfter 16 (loadEvents seg mask) l d).out = 256 * seg.toNat + mask.toNat

/-- R101: SHOUT, as the whole next state. LATCH and OUT are not touched. The device clause is the spec's own inference
(R108, from the device model of R180, decision D14; log entry 8). R108 speaks of 16 bits; the cut to CHAIN_LEN bits at
other values is the model's reading (log entry 17). -/
def Obligations.ShoutShiftsItsByteIntoTheChain : Prop :=
  ∀ (b : Byte) (s : State),
    exec (.shout b) s = .next { s with
      lines := ⟨s.lines.latch, true, b.getLsbD 0⟩
      dev := ⟨(256 * s.dev.chain + b.toNat) % 2 ^ s.cfg.chainLen, s.dev.out⟩
      events := s.events ++ serBits b }

/-- R104: WRSR, as the whole next state, whatever the lines and the device held before. The device clause is the
spec's own inference (R107, from R180, decision D14; log entry 8), with seg : mask alone where CHAIN_LEN is 16. R107
speaks of that length; the clause for every CHAIN_LEN is the model's reading (log entry 17). -/
def Obligations.WrsrLoadsItsTwoBytes : Prop :=
  ∀ (seg mask : Byte) (s : State), ∃ x : Nat,
    exec (.wrsr seg mask) s = .next { s with
      lines := ⟨true, true, mask.getLsbD 0⟩
      dev := ⟨x, x⟩
      events := s.events ++ loadEvents seg mask } ∧
    x = (65536 * s.dev.chain + (seg ++ mask).toNat) % 2 ^ s.cfg.chainLen ∧
    (s.cfg.chainLen = 16 → x = (seg ++ mask).toNat)

/-- R105: LOAD, as the whole next state. The device clause is the spec's own inference (R107; log entry 8), with SEG :
MASK alone where CHAIN_LEN is 16. R107 speaks of that length; the clause for every CHAIN_LEN is the model's reading
(log entry 17). -/
def Obligations.LoadSendsSegAndMask : Prop :=
  ∀ s : State, ∃ x : Nat,
    exec .load s = .next { s with
      lines := ⟨true, true, s.mask.getLsbD 0⟩
      dev := ⟨x, x⟩
      events := s.events ++ loadEvents s.seg s.mask } ∧
    x = (65536 * s.dev.chain + (s.seg ++ s.mask).toNat) % 2 ^ s.cfg.chainLen ∧
    (s.cfg.chainLen = 16 → x = (s.seg ++ s.mask).toNat)

/-- R108, R209: a SHOUT leaves OUT, and, CHAIN being no longer than a load's 16 bits, a load after it commits what it
commits without the SHOUT. All of it is about CHAIN and OUT: the spec's own inferences R107 and R108 from the device
model of R180 (log entry 8). They speak of 16 bits; a CHAIN_LEN below 16 is the model's reading (log entry 17), and a
longer chain keeps bits of the SHOUT. -/
def Obligations.ShoutDoesNotReachTheNextLoad : Prop :=
  ∀ (b seg mask : Byte) (s : State), ∃ t u v,
    exec (.shout b) s = .next t ∧ exec (.wrsr seg mask) t = .next u ∧ exec (.wrsr seg mask) s = .next v ∧
    t.dev.out = s.dev.out ∧
    (s.cfg.chainLen = 16 → t.dev.chain = s.dev.chain % 256 * 256 + b.toNat) ∧
    (s.cfg.chainLen ≤ 16 → u.dev = v.dev)

/-- R181, R182: what a load of any two bytes lights, by the device model of R180 and its inference R107 (log entry 8).
The chain has room for a load's 16 bits. That OUT[15:8] and OUT[7:0] keep their bit numbers where CHAIN_LEN is above
16 is the model's choice (log entry 17). -/
def Obligations.LitSegmentsFollowTheLoadedBytes : Prop :=
  ∀ (seg mask : Byte) (s : State), 16 ≤ s.cfg.chainLen → ∃ t, exec (.wrsr seg mask) s = .next t ∧
    ∀ i : PosIx,
      (selected t.cfg t.dev.out i = true ↔ mask &&& s.cfg.digitPos.get i.toFin ≠ 0#8) ∧
      (∀ x : Segment, segmentLit t.cfg t.dev.out i x = true ↔
        mask &&& s.cfg.digitPos.get i.toFin ≠ 0#8 ∧
        seg.getLsbD (s.cfg.segMap.get x.index).val = false) ∧
      (pointLit t.cfg t.dev.out i = true ↔
        mask &&& s.cfg.digitPos.get i.toFin ≠ 0#8 ∧ seg.getLsbD 7 = false)

/-- R124, R182, R183: under the constraints of R6, a load with a position's mask selects that position only, by the
device model of R180 and its inference R107 (log entry 8). The chain has room for a load's 16 bits. That OUT[15:8] and
OUT[7:0] keep their bit numbers where CHAIN_LEN is above 16 is the model's choice (log entry 17). -/
def Obligations.OneHotLoadLightsOnePosition : Prop :=
  ∀ (seg : Byte) (i j : PosIx) (s : State), s.cfg.WellFormed → 16 ≤ s.cfg.chainLen →
    ∃ t, exec (.wrsr seg (s.cfg.digitPos.get i.toFin)) s = .next t ∧
      (selected t.cfg t.dev.out j = true ↔ j = i)

/-! ### Refresh engine -/

/-- R140, R155: what PHASE and FRAME put in VAL. At the widths of R6 and with the ports within them, the time-mode
value is at most 12763 and never wraps, and the voltage-mode value is VOLT_CODE. That VAL takes the low W_VAL bits at
other widths, or of a port out of its width, is the model's choice (log entry 17). -/
def Obligations.ValueOfThePorts : Prop :=
  ∀ (i : Instr) (s : State), i = .phase ∨ i = .frame →
    ∃ t, exec i s = .next t ∧
      (s.inputs.showVolt = false → t.val = (s.inputs.minutes * 100 + s.inputs.seconds) % 2 ^ s.cfg.wVal) ∧
      (s.inputs.showVolt = true → t.val = s.inputs.voltCode % 2 ^ s.cfg.wVal) ∧
      (s.cfg.SourceValues → s.inputs.minutes < 2 ^ s.cfg.wMin → s.inputs.seconds < 2 ^ s.cfg.wSec →
        s.inputs.showVolt = false → t.val = s.inputs.minutes * 100 + s.inputs.seconds ∧ t.val ≤ 12763) ∧
      (s.cfg.SourceValues → s.inputs.voltCode < 2 ^ s.cfg.wVc → s.inputs.showVolt = true →
        t.val = s.inputs.voltCode)

/-- R141: the digits are in 0 to 9 and spell the value modulo 10000, so the whole value from 0 to 9999. -/
def Obligations.DigitsSpellTheValue : Prop :=
  ∀ v : Nat,
    (∀ k : PosIx, (digitAt (decompDigits v) k).toNat ≤ 9) ∧
    1000 * (digitAt (decompDigits v) 0#2).toNat + 100 * (digitAt (decompDigits v) 1#2).toNat +
      10 * (digitAt (decompDigits v) 2#2).toNat + (digitAt (decompDigits v) 3#2).toNat = v % 10000

/-- R142: DECOMP, as the whole next state, with the digits in closed form. VAL has room for the operand's 14 bits, as at
W_VAL = 14; a narrower VAL is in DecompCutsToTheWidthOfVal. -/
def Obligations.DecompSplitsItsValue : Prop :=
  ∀ (v : Value) (s : State), 14 ≤ s.cfg.wVal →
    exec (.decomp v) s = .next { s with
      val := v.toNat
      dig := #v[BitVec.ofNat 4 (v.toNat / 1000 % 10), BitVec.ofNat 4 (v.toNat / 100 % 10),
        BitVec.ofNat 4 (v.toNat / 10 % 10), BitVec.ofNat 4 (v.toNat % 10)] }

/-- R144, R147: PHASE, as the whole next state. The device clause is the spec's own inference (R107; log entry 8),
with the two bytes alone where CHAIN_LEN is 16. Where a parameter is not at R6's value, the cut of VAL to W_VAL bits
is the model's choice, and PH modulo NUM_DIGITS and the cut of CHAIN to CHAIN_LEN bits are its reading (log entry 17).
-/
def Obligations.PhaseDrawsThePositionOfPh : Prop :=
  ∀ s : State, ∃ x : Nat,
    let v := value s.inputs % 2 ^ s.cfg.wVal
    let glyph := lutSeg s.cfg (digitAt (decompDigits v) s.ph)
    let pattern := if s.ph = s.cfg.dpIndex then glyph &&& 0x7F#8 else glyph
    let position := s.cfg.digitPos.get s.ph.toFin
    let request : List Event :=
      if s.ph = s.cfg.dpIndex ∧ (s.inputs.showVolt = true ∨ s.cfg.sampleInTimeMode = true) then [.sampleReq] else []
    exec .phase s = .next { s with
      val := v
      dig := decompDigits v
      seg := pattern
      mask := position
      ph := BitVec.ofNat 2 ((s.ph.toNat + 1) % s.cfg.numDigits)
      lines := ⟨true, true, position.getLsbD 0⟩
      dev := ⟨x, x⟩
      events := s.events ++ request ++ loadEvents pattern position } ∧
    x = (65536 * s.dev.chain + (pattern ++ position).toNat) % 2 ^ s.cfg.chainLen ∧
    (s.cfg.chainLen = 16 → x = (pattern ++ position).toNat)

/-- R144, R149: FRAME, as the whole next state: the positions 0 to NUM_DIGITS - 1 drawn in order, the sample request
just before the load of position DP_INDEX, and PH unchanged. At the values of R6 these are four loads, with the
request between the first and the second. The device clause is the spec's own inference (R107; log entry 8). Where a
parameter is not at R6's value, the NUM_DIGITS loads and the cut of CHAIN to CHAIN_LEN bits are the model's reading,
and the cut of VAL to W_VAL bits its choice (log entry 17). -/
def Obligations.FrameDrawsItsPositions : Prop :=
  ∀ s : State, 1 ≤ s.cfg.numDigits → ∃ (x : Nat) (es : List Event),
    let v := value s.inputs % 2 ^ s.cfg.wVal
    let glyph := fun k : PosIx => lutSeg s.cfg (digitAt (decompDigits v) k)
    let pattern := fun k : PosIx => if k = s.cfg.dpIndex then glyph k &&& 0x7F#8 else glyph k
    let position := fun k : PosIx => s.cfg.digitPos.get k.toFin
    let request : List Event :=
      if s.inputs.showVolt = true ∨ s.cfg.sampleInTimeMode = true then [.sampleReq] else []
    let positions := (List.range s.cfg.numDigits).map (BitVec.ofNat 2)
    let last := BitVec.ofNat 2 (s.cfg.numDigits - 1)
    exec .frame s = .next { s with
      val := v
      dig := decompDigits v
      seg := pattern last
      mask := position last
      lines := ⟨true, true, (position last).getLsbD 0⟩
      dev := ⟨x, x⟩
      events := s.events ++ es } ∧
    x = positions.foldl (fun c k => (65536 * c + (pattern k ++ position k).toNat) % 2 ^ s.cfg.chainLen) s.dev.chain ∧
    es = positions.flatMap (fun k =>
      (if k = s.cfg.dpIndex then request else []) ++ loadEvents (pattern k) (position k)) ∧
    (s.cfg.SourceValues →
      x = (glyph 3#2 ++ position 3#2).toNat ∧
      es = loadEvents (glyph 0#2) (position 0#2) ++ request ++
        loadEvents (glyph 1#2 &&& 0x7F#8) (position 1#2) ++
        loadEvents (glyph 2#2) (position 2#2) ++ loadEvents (glyph 3#2) (position 3#2))

/-- R148 (the spec's own inference from R147): PH takes the values 0, 1, 2, 3, 0, and so on, and the k-th PHASE from
PH = 0 draws position k mod 4, 4 being NUM_DIGITS. The modulus at another NUM_DIGITS, and the constraints on it, are
the model's reading (log entry 17). -/
def Obligations.SuccessivePhasesCyclePh : Prop :=
  ∀ (k : Nat) (s : State) (rest : List Stimulus), s.cfg.WellFormed → s.ph = 0#2 →
    s.env = List.replicate (k + 1) (.command 0x700000#24) ++ rest →
    ∃ t, runSteps (k + 1) s = .next t ∧ t.env = rest ∧
      t.ph.toNat = (k + 1) % s.cfg.numDigits ∧ t.mask = s.cfg.digitPos.get (Fin.ofNat 4 (k % s.cfg.numDigits))

/-- R147, R149 and conflict C3: with the ports held still, as many PHASE commands from PH = 0 as there are positions
(four, at the values of R6) leave exactly the state one FRAME leaves, event for event. The device is in the equality
by the model of R180 (log entry 8). That a frame is NUM_DIGITS phases at values other than 4 is the model's reading
(log entry 17). -/
def Obligations.PhasesOfAFrameEqualOneFrame : Prop :=
  ∀ (s : State) (rest : List Stimulus), s.cfg.WellFormed → s.ph = 0#2 →
    s.env = List.replicate s.cfg.numDigits (.command 0x700000#24) ++ rest →
    runSteps s.cfg.numDigits s = exec .frame { s with env := rest }

/-- R145: the decimal point is lit at position DP_INDEX (1, at the values of R6) in both modes and at no other
position, under PHASE and under FRAME. What OUT holds, and so what is lit, is by the device model of R180 and its
inference R107 (log entry 8). The chain has room for a load's 16 bits. A FRAME that latches NUM_DIGITS values where
that is not 4 is the model's reading, and the bit numbers of OUT where CHAIN_LEN is above 16 its choice (log entry
17). -/
def Obligations.PointIsLitAtDpIndexOnly : Prop :=
  ∀ s : State, s.cfg.WellFormed → 16 ≤ s.cfg.chainLen →
    (∃ t, exec .phase s = .next t ∧
      ∀ p : PosIx, pointLit t.cfg t.dev.out p = true ↔ p = s.cfg.dpIndex ∧ s.ph = s.cfg.dpIndex) ∧
    (∃ t es, exec .frame s = .next t ∧ t.events = s.events ++ es ∧
      (latchedValues s.cfg.chainLen es s.lines s.dev).length = s.cfg.numDigits ∧
      ∀ (k out : Nat), (latchedValues s.cfg.chainLen es s.lines s.dev)[k]? = some out →
        ∀ p : PosIx, pointLit s.cfg out p = true ↔ p = s.cfg.dpIndex ∧ k = s.cfg.dpIndex.toNat)

/-- R151 (the spec's own inference): in time mode a frame shows the minutes, the point and the seconds. The latched values
are by the device model of R180 and its inference R107 (log entry 8). The parameters R151 has in numbers are at R6's
values. -/
def Obligations.TimeModeFrameShowsMinutesAndSeconds : Prop :=
  ∀ s : State, s.cfg.SourceValues →
    s.inputs.showVolt = false → s.inputs.minutes ≤ 99 → s.inputs.seconds ≤ 59 →
    ∃ t es, exec .frame s = .next t ∧ t.events = s.events ++ es ∧
      latchedValues s.cfg.chainLen es s.lines s.dev =
        [(lutSeg s.cfg (BitVec.ofNat 4 (s.inputs.minutes / 10)) ++ lutPos s.cfg 0#2).toNat,
         ((lutSeg s.cfg (BitVec.ofNat 4 (s.inputs.minutes % 10)) &&& 0x7F#8) ++ lutPos s.cfg 1#2).toNat,
         (lutSeg s.cfg (BitVec.ofNat 4 (s.inputs.seconds / 10)) ++ lutPos s.cfg 2#2).toNat,
         (lutSeg s.cfg (BitVec.ofNat 4 (s.inputs.seconds % 10)) ++ lutPos s.cfg 3#2).toNat]

/-- R152 (the spec's own inference): in voltage mode a frame shows 0, the volts, the point, the tenths and the hundredths.
The latched values are by the device model of R180 and its inference R107 (log entry 8). The parameters R152 has in numbers
are at R6's values. -/
def Obligations.VoltageModeFrameShowsTheCode : Prop :=
  ∀ (s : State) (v t' h : Nat), s.cfg.SourceValues → s.inputs.showVolt = true → s.inputs.voltCode ≤ 330 →
    t' ≤ 9 → h ≤ 9 → s.inputs.voltCode = 100 * v + 10 * t' + h →
    ∃ t es, exec .frame s = .next t ∧ t.events = s.events ++ es ∧
      latchedValues s.cfg.chainLen es s.lines s.dev =
        [(lutSeg s.cfg 0#4 ++ lutPos s.cfg 0#2).toNat,
         ((lutSeg s.cfg (BitVec.ofNat 4 v) &&& 0x7F#8) ++ lutPos s.cfg 1#2).toNat,
         (lutSeg s.cfg (BitVec.ofNat 4 t') ++ lutPos s.cfg 2#2).toNat,
         (lutSeg s.cfg (BitVec.ofNat 4 h) ++ lutPos s.cfg 3#2).toNat]

/-- R62, R150 (the spec's own inference): a sample that lands after a PHASE shows in the next PHASE, not in the one that
requested it, and the same of FRAME, all of whose digits come from one value. The clauses on OUT are by the device model of
R180 and its inference R107 (log entry 8). That the new VOLT_CODE is cut to the width of its port, and VAL to its own, is
the model's choice (log entry 17). -/
def Obligations.SampleShowsInTheNextPhase : Prop :=
  ∀ (s : State) (c : Nat) (rest : List Stimulus), s.inputs.showVolt = true →
    (s.env = .command 0x700000#24 :: .write (.voltCode c) :: .command 0x700000#24 :: rest →
      ∃ t u, runSteps 2 s = .next t ∧ runSteps 3 s = .next u ∧
        t.val = s.inputs.voltCode % 2 ^ s.cfg.wVal ∧
        t.seg = drawPattern s.cfg s.ph (digitAt (decompDigits t.val) s.ph) ∧
        u.val = c % 2 ^ s.cfg.wVc % 2 ^ s.cfg.wVal ∧
        u.seg = drawPattern s.cfg t.ph (digitAt (decompDigits u.val) t.ph) ∧
        (s.cfg.chainLen = 16 →
          t.dev.out = (t.seg ++ lutPos s.cfg s.ph).toNat ∧ u.dev.out = (u.seg ++ lutPos s.cfg t.ph).toNat)) ∧
    (s.env = .command 0x800000#24 :: .write (.voltCode c) :: .command 0x800000#24 :: rest →
      ∃ t u es fs, runSteps 2 s = .next t ∧ runSteps 3 s = .next u ∧
        t.val = s.inputs.voltCode % 2 ^ s.cfg.wVal ∧ t.events = s.events ++ es ∧
        u.val = c % 2 ^ s.cfg.wVc % 2 ^ s.cfg.wVal ∧ u.events = t.events ++ fs ∧
        (s.cfg.SourceValues →
          latchedValues s.cfg.chainLen es s.lines s.dev = [0#2, 1#2, 2#2, 3#2].map (fun k =>
            (drawPattern s.cfg k (digitAt (decompDigits t.val) k) ++ lutPos s.cfg k).toNat) ∧
          latchedValues s.cfg.chainLen fs t.lines t.dev = [0#2, 1#2, 2#2, 3#2].map (fun k =>
            (drawPattern s.cfg k (digitAt (decompDigits u.val) k) ++ lutPos s.cfg k).toNat)))

/-- R84, R105, R122, R125, R126, R154: what the expansions of the pseudo-instructions do. With a digit 10 to 15 the ENCD of
DRAW and DRAWDP faults, SEG keeps its pattern, and the rest of the expansion goes on with it. The clauses on OUT, with
CHAIN_LEN = 16, are by the device model of R180 and its inference R107 (log entry 8). -/
def Obligations.PseudoInstructionsShowTheirDigit : Prop :=
  ∀ (s : State) (d : DigitReg) (i : PosIx) (rest : List Stimulus),
    let pattern := if d.toNat < 10 then lutSeg s.cfg d else s.seg
    let faults := if d.toNat < 10 then s.flt else s.flt ||| 0x02#8
    (s.env = (drawCmds d i).map (fun c => .command (encode c)) ++ rest →
      ∃ t, runSteps 3 s = .next t ∧ t.env = rest ∧ t.flt = faults ∧ t.seg = pattern ∧ t.mask = lutPos s.cfg i ∧
        (s.cfg.chainLen = 16 → t.dev.out = (pattern ++ lutPos s.cfg i).toNat)) ∧
    (s.env = (drawdpCmds d i).map (fun c => .command (encode c)) ++ rest →
      ∃ t, runSteps 4 s = .next t ∧ t.env = rest ∧ t.flt = faults ∧ t.seg = pattern &&& 0x7F#8 ∧
        t.mask = lutPos s.cfg i ∧
        (s.cfg.chainLen = 16 → t.dev.out = ((pattern &&& 0x7F#8) ++ lutPos s.cfg i).toNat)) ∧
    (s.env = blankCmds.map (fun c => .command (encode c)) ++ rest →
      ∃ t, runSteps 1 s = .next t ∧ t.env = rest ∧ t.flt = s.flt ∧ (s.cfg.chainLen = 16 → t.dev.out = 0xFF00)) ∧
    (s.env = (refreshCmds s.cfg.refreshOp).map (fun c => .command (encode c)) ++ rest →
      step s = step { s with env := .tick :: rest })

/-! ### The parameters at other values than R6's -/

/-- The model's reading (log entry 17) of R24 and R147, whose text has 4, at another number of positions within the
constraints: PHASE adds 1 to PH modulo NUM_DIGITS. -/
def Obligations.PhaseAdvancesPhModuloNumDigits : Prop :=
  ∀ s : State, s.cfg.WellFormed →
    ∃ t, exec .phase s = .next t ∧ t.ph.toNat = (s.ph.toNat + 1) % s.cfg.numDigits ∧ t.ph.toNat < s.cfg.numDigits

/-- The model's choice (log entry 17) where R142 and R25 have 14 bits: a VAL of any width takes the low W_VAL bits of
DECOMP's operand, and DIG holds the digits of what it took. -/
def Obligations.DecompCutsToTheWidthOfVal : Prop :=
  ∀ (v : Value) (s : State), ∃ x : Nat,
    exec (.decomp v) s = .next { s with
      val := x
      dig := #v[BitVec.ofNat 4 (x / 1000 % 10), BitVec.ofNat 4 (x / 100 % 10),
        BitVec.ofNat 4 (x / 10 % 10), BitVec.ofNat 4 (x % 10)] } ∧
    x = v.toNat % 2 ^ s.cfg.wVal ∧ x < 2 ^ s.cfg.wVal ∧ (14 ≤ s.cfg.wVal → x = v.toNat)
end

