-- ==== Sys2Proof/Laws/Decode.lean ====
section
/-! SUPPORT. The parts of the decoder: words bit by bit, the opcode field, and the must-be-zero check. -/

namespace Sys2Proof

/-- Two words with the same 24 bits are one word. -/
theorem Cmd.eq_of_bits {x y : Cmd} (h : ∀ k < 24, x.getLsbD k = y.getLsbD k) : x = y :=
  BitVec.eq_of_getLsbD_eq fun k hk => h k hk

/-- The opcode field is the word shifted right by 20. -/
theorem opField_eq (w : Cmd) : opField w = (w >>> 20).toNat := by
  have h1 : opField w = w.toNat / 2 ^ 20 % 16 := by
    simp [opField, BitVec.extractLsb'_toNat, Nat.shiftRight_eq_div_pow]
  have h2 : (w >>> 20).toNat = w.toNat / 2 ^ 20 := by simp [Nat.shiftRight_eq_div_pow]
  have := w.isLt
  omega

/-- The opcode field is a 4-bit number. -/
theorem opField_lt (w : Cmd) : opField w < 16 := (w.extractLsb' 20 4).isLt

/-- A word's decoding, from its opcode. -/
theorem decode_of_opField {w : Cmd} {n : Nat} (h : opField w = n) : decode w = decodeOp n w := by
  rw [decode, h]

/-- A checked word decodes to its command only with its must-be-zero bits clear. -/
theorem requireZero_ok {w mbz : Cmd} {i j : Instr} (h : requireZero w mbz i = .ok j) :
    w &&& mbz = 0#24 ∧ i = j := by
  unfold requireZero at h
  split at h
  · exact ⟨‹_›, by simpa using h⟩
  · cases h

theorem requireZero_of_zero {w mbz : Cmd} (i : Instr) (h : w &&& mbz = 0#24) : requireZero w mbz i = .ok i := by
  simp [requireZero, h]

theorem requireZero_of_ne {w mbz : Cmd} (i : Instr) (h : w &&& mbz ≠ 0#24) :
    requireZero w mbz i = .error .mustBeZeroBitSet := by
  simp [requireZero, h]

end Sys2Proof
end

