-- ==== Sys2Proof/Laws/State.lean ====
section
/-! SUPPORT. What each state operation leaves in each field: one lemma for each field and operation, so that no later
proof unfolds a record update. -/

namespace Sys2Proof.Machine

variable (s : State)

@[simp] theorem emit_cfg (es : List Event) : (emit es s).cfg = s.cfg := rfl
@[simp] theorem emit_seg (es : List Event) : (emit es s).seg = s.seg := rfl
@[simp] theorem emit_mask (es : List Event) : (emit es s).mask = s.mask := rfl
@[simp] theorem emit_ph (es : List Event) : (emit es s).ph = s.ph := rfl
@[simp] theorem emit_val (es : List Event) : (emit es s).val = s.val := rfl
@[simp] theorem emit_dig (es : List Event) : (emit es s).dig = s.dig := rfl
@[simp] theorem emit_flt (es : List Event) : (emit es s).flt = s.flt := rfl
@[simp] theorem emit_lines (es : List Event) : (emit es s).lines = linesAfter es s.lines := rfl
@[simp] theorem emit_events (es : List Event) : (emit es s).events = s.events ++ es := rfl
@[simp] theorem emit_inputs (es : List Event) : (emit es s).inputs = s.inputs := rfl
@[simp] theorem emit_dev (es : List Event) : (emit es s).dev = deviceAfter s.cfg.chainLen es s.lines s.dev := rfl
@[simp] theorem emit_env (es : List Event) : (emit es s).env = s.env := rfl

@[simp] theorem raiseFault_cfg (c : FaultCode) : (raiseFault c s).cfg = s.cfg := rfl
@[simp] theorem raiseFault_seg (c : FaultCode) : (raiseFault c s).seg = s.seg := rfl
@[simp] theorem raiseFault_mask (c : FaultCode) : (raiseFault c s).mask = s.mask := rfl
@[simp] theorem raiseFault_ph (c : FaultCode) : (raiseFault c s).ph = s.ph := rfl
@[simp] theorem raiseFault_val (c : FaultCode) : (raiseFault c s).val = s.val := rfl
@[simp] theorem raiseFault_dig (c : FaultCode) : (raiseFault c s).dig = s.dig := rfl
@[simp] theorem raiseFault_flt (c : FaultCode) : (raiseFault c s).flt = setFault c s.flt := rfl
@[simp] theorem raiseFault_lines (c : FaultCode) : (raiseFault c s).lines = s.lines := rfl
@[simp] theorem raiseFault_events (c : FaultCode) : (raiseFault c s).events = s.events := rfl
@[simp] theorem raiseFault_inputs (c : FaultCode) : (raiseFault c s).inputs = s.inputs := rfl
@[simp] theorem raiseFault_dev (c : FaultCode) : (raiseFault c s).dev = s.dev := rfl
@[simp] theorem raiseFault_env (c : FaultCode) : (raiseFault c s).env = s.env := rfl

@[simp] theorem setValue_cfg (v : Nat) : (setValue v s).cfg = s.cfg := rfl
@[simp] theorem setValue_seg (v : Nat) : (setValue v s).seg = s.seg := rfl
@[simp] theorem setValue_mask (v : Nat) : (setValue v s).mask = s.mask := rfl
@[simp] theorem setValue_ph (v : Nat) : (setValue v s).ph = s.ph := rfl
@[simp] theorem setValue_val (v : Nat) : (setValue v s).val = lowBits s.cfg.wVal v := rfl
@[simp] theorem setValue_dig (v : Nat) : (setValue v s).dig = decompDigits (lowBits s.cfg.wVal v) := rfl
@[simp] theorem setValue_flt (v : Nat) : (setValue v s).flt = s.flt := rfl
@[simp] theorem setValue_lines (v : Nat) : (setValue v s).lines = s.lines := rfl
@[simp] theorem setValue_events (v : Nat) : (setValue v s).events = s.events := rfl
@[simp] theorem setValue_inputs (v : Nat) : (setValue v s).inputs = s.inputs := rfl
@[simp] theorem setValue_dev (v : Nat) : (setValue v s).dev = s.dev := rfl
@[simp] theorem setValue_env (v : Nat) : (setValue v s).env = s.env := rfl

@[simp] theorem drawPhase_cfg (p : PosIx) (sv : Bool) : (drawPhase p sv s).cfg = s.cfg := rfl
@[simp] theorem drawPhase_seg (p : PosIx) (sv : Bool) : (drawPhase p sv s).seg = drawPattern s.cfg p (digitAt s.dig p) := rfl
@[simp] theorem drawPhase_mask (p : PosIx) (sv : Bool) : (drawPhase p sv s).mask = lutPos s.cfg p := rfl
@[simp] theorem drawPhase_ph (p : PosIx) (sv : Bool) : (drawPhase p sv s).ph = s.ph := rfl
@[simp] theorem drawPhase_val (p : PosIx) (sv : Bool) : (drawPhase p sv s).val = s.val := rfl
@[simp] theorem drawPhase_dig (p : PosIx) (sv : Bool) : (drawPhase p sv s).dig = s.dig := rfl
@[simp] theorem drawPhase_flt (p : PosIx) (sv : Bool) : (drawPhase p sv s).flt = s.flt := rfl
@[simp] theorem drawPhase_lines (p : PosIx) (sv : Bool) : (drawPhase p sv s).lines =
  linesAfter (sampleEvents s.cfg p sv ++ loadEvents (drawPattern s.cfg p (digitAt s.dig p)) (lutPos s.cfg p)) s.lines := rfl
@[simp] theorem drawPhase_events (p : PosIx) (sv : Bool) : (drawPhase p sv s).events =
  s.events ++ (sampleEvents s.cfg p sv ++ loadEvents (drawPattern s.cfg p (digitAt s.dig p)) (lutPos s.cfg p)) := rfl
@[simp] theorem drawPhase_inputs (p : PosIx) (sv : Bool) : (drawPhase p sv s).inputs = s.inputs := rfl
@[simp] theorem drawPhase_dev (p : PosIx) (sv : Bool) : (drawPhase p sv s).dev =
  deviceAfter s.cfg.chainLen (sampleEvents s.cfg p sv ++ loadEvents (drawPattern s.cfg p (digitAt s.dig p)) (lutPos s.cfg p)) s.lines s.dev := rfl
@[simp] theorem drawPhase_env (p : PosIx) (sv : Bool) : (drawPhase p sv s).env = s.env := rfl

@[simp] theorem presentWord_cfg (w : Cmd) : (presentWord w s).cfg = s.cfg := rfl
@[simp] theorem presentWord_seg (w : Cmd) : (presentWord w s).seg = s.seg := rfl
@[simp] theorem presentWord_mask (w : Cmd) : (presentWord w s).mask = s.mask := rfl
@[simp] theorem presentWord_ph (w : Cmd) : (presentWord w s).ph = s.ph := rfl
@[simp] theorem presentWord_val (w : Cmd) : (presentWord w s).val = s.val := rfl
@[simp] theorem presentWord_dig (w : Cmd) : (presentWord w s).dig = s.dig := rfl
@[simp] theorem presentWord_flt (w : Cmd) : (presentWord w s).flt = s.flt := rfl
@[simp] theorem presentWord_lines (w : Cmd) : (presentWord w s).lines = s.lines := rfl
@[simp] theorem presentWord_events (w : Cmd) : (presentWord w s).events = s.events := rfl
@[simp] theorem presentWord_inputs (w : Cmd) : (presentWord w s).inputs = s.inputs := rfl
@[simp] theorem presentWord_dev (w : Cmd) : (presentWord w s).dev = s.dev := rfl
@[simp] theorem presentWord_env (w : Cmd) : (presentWord w s).env = .command w :: s.env := rfl

@[simp] theorem applyReset_cfg : (applyReset s).cfg = s.cfg := rfl
@[simp] theorem applyReset_seg : (applyReset s).seg = 0xFF#8 := rfl
@[simp] theorem applyReset_mask : (applyReset s).mask = 0x00#8 := rfl
@[simp] theorem applyReset_ph : (applyReset s).ph = 0#2 := rfl
@[simp] theorem applyReset_val : (applyReset s).val = 0 := rfl
@[simp] theorem applyReset_dig : (applyReset s).dig = #v[0#4, 0#4, 0#4, 0#4] := rfl
@[simp] theorem applyReset_flt : (applyReset s).flt = 0x00#8 := rfl
@[simp] theorem applyReset_lines : (applyReset s).lines = resetLines := rfl
@[simp] theorem applyReset_events : (applyReset s).events = s.events ++ resetEvents := rfl
@[simp] theorem applyReset_inputs : (applyReset s).inputs = s.inputs := rfl
@[simp] theorem applyReset_dev : (applyReset s).dev = deviceAfter s.cfg.chainLen resetEvents s.lines s.dev := rfl
@[simp] theorem applyReset_env : (applyReset s).env = s.env := rfl

@[simp] theorem writePort_cfg (p : PortWrite) : (writePort p s).cfg = s.cfg := by cases p <;> rfl
@[simp] theorem writePort_seg (p : PortWrite) : (writePort p s).seg = s.seg := by cases p <;> rfl
@[simp] theorem writePort_mask (p : PortWrite) : (writePort p s).mask = s.mask := by cases p <;> rfl
@[simp] theorem writePort_ph (p : PortWrite) : (writePort p s).ph = s.ph := by cases p <;> rfl
@[simp] theorem writePort_val (p : PortWrite) : (writePort p s).val = s.val := by cases p <;> rfl
@[simp] theorem writePort_dig (p : PortWrite) : (writePort p s).dig = s.dig := by cases p <;> rfl
@[simp] theorem writePort_flt (p : PortWrite) : (writePort p s).flt = s.flt := by cases p <;> rfl
@[simp] theorem writePort_lines (p : PortWrite) : (writePort p s).lines = s.lines := by cases p <;> rfl
@[simp] theorem writePort_events (p : PortWrite) : (writePort p s).events = s.events := by cases p <;> rfl
@[simp] theorem writePort_dev (p : PortWrite) : (writePort p s).dev = s.dev := by cases p <;> rfl
@[simp] theorem writePort_env (p : PortWrite) : (writePort p s).env = s.env := by cases p <;> rfl

end Sys2Proof.Machine
end

