-- ==== Sys2Proof/Laws/Device.lean ====
section
/-! SUPPORT. What a list of events does to the lines and to the downstream device: over an appended list, over the
serializer's events and over a load's. -/

namespace Sys2Proof.Machine

/-- What a place of `w` bits holds is below 2^w. -/
theorem lowBits_lt (w v : Nat) : lowBits w v < 2 ^ w := Nat.mod_lt _ (Nat.two_pow_pos w)

/-- A number that fits is held whole. -/
theorem lowBits_of_lt {w v : Nat} (h : v < 2 ^ w) : lowBits w v = v := Nat.mod_eq_of_lt h

/-- Bits lost at an earlier shift would be lost at a later one. -/
theorem lowBits_mul_add (w x k d : Nat) : lowBits w (k * lowBits w x + d) = lowBits w (k * x + d) := by
  simp [lowBits, Nat.add_mod, Nat.mul_mod]

theorem linesAfter_append (es fs : List Event) (l : Lines) :
    linesAfter (es ++ fs) l = linesAfter fs (linesAfter es l) := by
  induction es generalizing l with
  | nil => rfl
  | cons e es ih => exact ih (lineStep e l)

theorem deviceAfter_append (n : Nat) (es fs : List Event) (l : Lines) (d : Device) :
    deviceAfter n (es ++ fs) l d = deviceAfter n fs (linesAfter es l) (deviceAfter n es l d) := by
  induction es generalizing l d with
  | nil => rfl
  | cons e es ih => exact ih (lineStep e l) (deviceStep n e l d)

theorem latchedValues_append (n : Nat) (es fs : List Event) (l : Lines) (d : Device) :
    latchedValues n (es ++ fs) l d =
      latchedValues n es l d ++ latchedValues n fs (linesAfter es l) (deviceAfter n es l d) := by
  induction es generalizing l d with
  | nil => rfl
  | cons e es ih =>
    have h := ih (lineStep e l) (deviceStep n e l d)
    match e with
    | .pin .latch b =>
      by_cases r : rising l.latch b = true <;> simp [latchedValues, linesAfter, deviceAfter, r, h]
    | .pin .clk _ => exact h
    | .pin .data _ => exact h
    | .sampleReq => exact h

theorem sampledBits_append (es fs : List Event) (l : Lines) :
    sampledBits (es ++ fs) l = sampledBits es l ++ sampledBits fs (linesAfter es l) := by
  induction es generalizing l with
  | nil => rfl
  | cons e es ih =>
    have h := ih (lineStep e l)
    match e with
    | .pin .clk b =>
      by_cases r : rising l.clk b = true <;> simp [sampledBits, linesAfter, r, h]
    | .pin .latch _ => exact h
    | .pin .data _ => exact h
    | .sampleReq => exact h

/-- Sending one bit leaves CLK high and the bit on DATA. -/
theorem linesAfter_bitEvents (b : Bool) (l : Lines) :
    linesAfter (bitEvents b) l = { l with clk := true, data := b } := rfl

/-- Sending one bit shifts it into CHAIN, whatever level CLK stood at. -/
theorem deviceAfter_bitEvents (n : Nat) (b : Bool) (l : Lines) (d : Device) :
    deviceAfter n (bitEvents b) l d = { d with chain := shiftIn n d.chain b } := by
  simp [bitEvents, deviceAfter, deviceStep, lineStep, rising]

theorem sampledBits_bitEvents (b : Bool) (l : Lines) : sampledBits (bitEvents b) l = [b] := by
  simp [bitEvents, sampledBits, lineStep, rising]

theorem latchedValues_bitEvents (n : Nat) (b : Bool) (l : Lines) (d : Device) :
    latchedValues n (bitEvents b) l d = [] := by
  simp [bitEvents, latchedValues]

/-- A byte's events, bit by bit. -/
theorem serBits_eq (b : Byte) :
    serBits b =
      bitEvents (b.getLsbD 7) ++ (bitEvents (b.getLsbD 6) ++ (bitEvents (b.getLsbD 5) ++
        (bitEvents (b.getLsbD 4) ++ (bitEvents (b.getLsbD 3) ++ (bitEvents (b.getLsbD 2) ++
          (bitEvents (b.getLsbD 1) ++ bitEvents (b.getLsbD 0))))))) := rfl

theorem serBits_length (b : Byte) : (serBits b).length = 24 := rfl

theorem loadEvents_length (seg mask : Byte) : (loadEvents seg mask).length = 50 := rfl

/-- The serializer leaves CLK high and the byte's lowest bit on DATA, and does not touch LATCH. -/
theorem linesAfter_serBits (b : Byte) (l : Lines) :
    linesAfter (serBits b) l = { l with clk := true, data := b.getLsbD 0 } := by
  simp only [serBits_eq, linesAfter_append, linesAfter_bitEvents]

/-- A byte is the number its bits spell. -/
theorem toNat_of_bits (b : Byte) :
    b.toNat = 2 * (2 * (2 * (2 * (2 * (2 * (2 * (b.getLsbD 7).toNat + (b.getLsbD 6).toNat) + (b.getLsbD 5).toNat) +
      (b.getLsbD 4).toNat) + (b.getLsbD 3).toNat) + (b.getLsbD 2).toNat) + (b.getLsbD 1).toNat) + (b.getLsbD 0).toNat := by
  have bit (k : Nat) : (b.getLsbD k).toNat = b.toNat / 2 ^ k % 2 := by rw [BitVec.getLsbD, Nat.toNat_testBit]
  have := b.isLt
  simp only [bit]
  omega

/-- A pair of bytes is the number of two digits to base 256. -/
theorem toNat_pair (x y : Byte) : (x ++ y).toNat = 2 ^ 8 * x.toNat + y.toNat := by
  have h : (x ++ y).toNat = x.toNat <<< 8 ||| y.toNat := BitVec.toNat_append x y
  rw [h, Nat.shiftLeft_eq, Nat.mul_comm, ← Nat.two_pow_add_eq_or_of_lt y.isLt]

/-- Eight shifts push CHAIN up by eight bits and put the byte below it. -/
theorem shiftIn_byte (n c : Nat) (b : Byte) :
    shiftIn n (shiftIn n (shiftIn n (shiftIn n (shiftIn n (shiftIn n (shiftIn n (shiftIn n c
      (b.getLsbD 7)) (b.getLsbD 6)) (b.getLsbD 5)) (b.getLsbD 4)) (b.getLsbD 3)) (b.getLsbD 2))
      (b.getLsbD 1)) (b.getLsbD 0) = lowBits n (2 ^ 8 * c + b.toNat) := by
  simp only [shiftIn, lowBits_mul_add]
  have := toNat_of_bits b
  exact congrArg _ (by omega)

/-- The serializer shifts its byte into CHAIN and leaves OUT alone. -/
theorem deviceAfter_serBits (n : Nat) (b : Byte) (l : Lines) (d : Device) :
    deviceAfter n (serBits b) l d = { d with chain := lowBits n (2 ^ 8 * d.chain + b.toNat) } := by
  simp only [serBits_eq, deviceAfter_append, deviceAfter_bitEvents, shiftIn_byte]

theorem latchedValues_serBits (n : Nat) (b : Byte) (l : Lines) (d : Device) : latchedValues n (serBits b) l d = [] := by
  simp only [serBits_eq, latchedValues_append, latchedValues_bitEvents, List.append_nil]

theorem sampledBits_serBits (b : Byte) (l : Lines) :
    sampledBits (serBits b) l =
      [b.getLsbD 7, b.getLsbD 6, b.getLsbD 5, b.getLsbD 4, b.getLsbD 3, b.getLsbD 2, b.getLsbD 1, b.getLsbD 0] := by
  simp only [serBits_eq, sampledBits_append, sampledBits_bitEvents, List.singleton_append]

/-- A load leaves LATCH and CLK high and the mask's lowest bit on DATA. -/
theorem linesAfter_loadEvents (seg mask : Byte) (l : Lines) :
    linesAfter (loadEvents seg mask) l = ⟨true, true, mask.getLsbD 0⟩ := by
  simp only [loadEvents, linesAfter_append, linesAfter_serBits]
  simp [linesAfter, lineStep]

/-- A load puts its two bytes into CHAIN and OUT, above them what CHAIN held, as far as CHAIN_LEN bits go. -/
theorem deviceAfter_loadEvents (n : Nat) (seg mask : Byte) (l : Lines) (d : Device) :
    deviceAfter n (loadEvents seg mask) l d =
      ⟨lowBits n (2 ^ 16 * d.chain + (seg ++ mask).toNat), lowBits n (2 ^ 16 * d.chain + (seg ++ mask).toNat)⟩ := by
  simp only [loadEvents, deviceAfter_append, linesAfter_append, deviceAfter_serBits, linesAfter_serBits,
    lowBits_mul_add]
  have h : 2 ^ 8 * (2 ^ 8 * d.chain + seg.toNat) + mask.toNat = 2 ^ 16 * d.chain + (seg ++ mask).toNat := by
    rw [toNat_pair]; omega
  rw [← h]
  simp [deviceAfter, deviceStep, lineStep, linesAfter, rising]

/-- A load latches once. -/
theorem latchedValues_loadEvents (n : Nat) (seg mask : Byte) (l : Lines) (d : Device) :
    latchedValues n (loadEvents seg mask) l d = [lowBits n (2 ^ 16 * d.chain + (seg ++ mask).toNat)] := by
  simp only [loadEvents, latchedValues_append, deviceAfter_append, linesAfter_append, deviceAfter_serBits,
    linesAfter_serBits, lowBits_mul_add, latchedValues_serBits]
  have h : 2 ^ 8 * (2 ^ 8 * d.chain + seg.toNat) + mask.toNat = 2 ^ 16 * d.chain + (seg ++ mask).toNat := by
    rw [toNat_pair]; omega
  rw [← h]
  simp [latchedValues, deviceAfter, deviceStep, lineStep, linesAfter, rising]

/-- The low 16 bits of what a load leaves are its two bytes, where the chain has room for them. -/
theorem ofNat_loaded {n : Nat} (h : 16 ≤ n) (c : Nat) (x : BitVec 16) :
    BitVec.ofNat 16 (lowBits n (2 ^ 16 * c + x.toNat)) = x := by
  apply BitVec.eq_of_toNat_eq
  rw [BitVec.toNat_ofNat, lowBits, Nat.mod_mod_of_dvd _ (Nat.pow_dvd_pow 2 h)]
  have := x.isLt
  omega

/-- The segment lines after a load are its first byte. -/
theorem segLines_loaded {n : Nat} (h : 16 ≤ n) (c : Nat) (seg mask : Byte) :
    segLines (lowBits n (2 ^ 16 * c + (seg ++ mask).toNat)) = seg := by
  have e := congrArg BitVec.toNat (ofNat_loaded h c (seg ++ mask))
  rw [BitVec.toNat_ofNat, toNat_pair] at e
  rw [toNat_pair]
  apply BitVec.eq_of_toNat_eq
  rw [segLines, BitVec.toNat_ofNat]
  have := mask.isLt
  omega

/-- The digit-select lines after a load are its second byte. -/
theorem selLines_loaded {n : Nat} (h : 16 ≤ n) (c : Nat) (seg mask : Byte) :
    selLines (lowBits n (2 ^ 16 * c + (seg ++ mask).toNat)) = mask := by
  have e := congrArg BitVec.toNat (ofNat_loaded h c (seg ++ mask))
  rw [BitVec.toNat_ofNat, toNat_pair] at e
  rw [toNat_pair]
  apply BitVec.eq_of_toNat_eq
  rw [selLines, BitVec.toNat_ofNat]
  have := mask.isLt
  omega

/-- CHAIN and OUT keep to CHAIN_LEN bits. -/
theorem deviceAfter_lt {n : Nat} (es : List Event) (l : Lines) {d : Device} (h : d.chain < 2 ^ n ∧ d.out < 2 ^ n) :
    (deviceAfter n es l d).chain < 2 ^ n ∧ (deviceAfter n es l d).out < 2 ^ n := by
  induction es generalizing l d with
  | nil => exact h
  | cons e es ih =>
    refine ih (lineStep e l) ?_
    match e with
    | .pin .latch b => by_cases r : rising l.latch b = true <;> simp [deviceStep, r, h]
    | .pin .clk b => by_cases r : rising l.clk b = true <;> simp [deviceStep, r, h, shiftIn, lowBits_lt]
    | .pin .data _ => exact h
    | .sampleReq => exact h

/-- A sample request changes neither the lines nor the device. -/
theorem linesAfter_sampleEvents (c : Config) (p : PosIx) (sv : Bool) (l : Lines) :
    linesAfter (sampleEvents c p sv) l = l := by
  unfold sampleEvents; split <;> rfl

theorem deviceAfter_sampleEvents (n : Nat) (c : Config) (p : PosIx) (sv : Bool) (l : Lines) (d : Device) :
    deviceAfter n (sampleEvents c p sv) l d = d := by
  unfold sampleEvents; split <;> rfl

theorem latchedValues_sampleEvents (n : Nat) (c : Config) (p : PosIx) (sv : Bool) (l : Lines) (d : Device) :
    latchedValues n (sampleEvents c p sv) l d = [] := by
  unfold sampleEvents; split <;> rfl

end Sys2Proof.Machine
end

