-- ==== Sys2Proof/Laws/Ops.lean ====
section
/-! SUPPORT. Everything each shared operation does, as one equation for each: the meanings' proofs cite these and do
not unfold the operations. -/

namespace Sys2Proof.Machine

/-- A load emitted from any state. -/
theorem emit_loadEvents (seg mask : Byte) (s : State) :
    emit (loadEvents seg mask) s =
      { s with
        lines := ⟨true, true, mask.getLsbD 0⟩
        dev := ⟨lowBits s.cfg.chainLen (2 ^ 16 * s.dev.chain + (seg ++ mask).toNat),
          lowBits s.cfg.chainLen (2 ^ 16 * s.dev.chain + (seg ++ mask).toNat)⟩
        events := s.events ++ loadEvents seg mask } := by
  simp only [emit, linesAfter_loadEvents, deviceAfter_loadEvents]

/-- The serializer's events emitted from any state. -/
theorem emit_serBits (b : Byte) (s : State) :
    emit (serBits b) s =
      { s with
        lines := { s.lines with clk := true, data := b.getLsbD 0 }
        dev := { s.dev with chain := lowBits s.cfg.chainLen (2 ^ 8 * s.dev.chain + b.toNat) }
        events := s.events ++ serBits b } := by
  simp only [emit, linesAfter_serBits, deviceAfter_serBits]

/-- The events of drawing one position. -/
def drawnEvents (c : Config) (ds : Vector DigitReg 4) (sv : Bool) (p : PosIx) : List Event :=
  sampleEvents c p sv ++ loadEvents (drawPattern c p (digitAt ds p)) (lutPos c p)

/-- The device after drawing one position. -/
def drawnDevice (c : Config) (ds : Vector DigitReg 4) (p : PosIx) (d : Device) : Device :=
  let x := lowBits c.chainLen (2 ^ 16 * d.chain + (drawPattern c p (digitAt ds p) ++ lutPos c p).toNat)
  ⟨x, x⟩

/-- Drawing one position, as a change of six fields. -/
theorem drawPhase_eq (p : PosIx) (sv : Bool) (s : State) :
    drawPhase p sv s =
      { s with
        seg := drawPattern s.cfg p (digitAt s.dig p)
        mask := lutPos s.cfg p
        lines := ⟨true, true, (lutPos s.cfg p).getLsbD 0⟩
        dev := drawnDevice s.cfg s.dig p s.dev
        events := s.events ++ drawnEvents s.cfg s.dig sv p } := by
  simp only [drawPhase, emit, linesAfter_append, deviceAfter_append, linesAfter_loadEvents, deviceAfter_loadEvents,
    deviceAfter_sampleEvents, drawnDevice, drawnEvents]

/-- Drawing positions in turn: the fields no drawing changes, and the events. -/
theorem drawPhases_keep (ps : List PosIx) (sv : Bool) (s : State) :
    let t := ps.foldl (fun t p => drawPhase p sv t) s
    t.cfg = s.cfg ∧ t.dig = s.dig ∧ t.val = s.val ∧ t.ph = s.ph ∧ t.flt = s.flt ∧ t.inputs = s.inputs ∧ t.env = s.env ∧
      t.events = s.events ++ ps.flatMap (drawnEvents s.cfg s.dig sv) := by
  induction ps generalizing s with
  | nil => simp
  | cons p ps ih =>
    obtain ⟨h1, h2, h3, h4, h5, h6, h7, h8⟩ := ih (drawPhase p sv s)
    refine ⟨h1, h2, h3, h4, h5, h6, h7, ?_⟩
    rw [List.foldl_cons, h8, drawPhase_events, drawPhase_cfg, drawPhase_dig, List.flatMap_cons, List.append_assoc]
    rfl

/-- Drawing positions in turn, the last of them p, as a change of six fields. -/
theorem drawPhases_concat (ps : List PosIx) (p : PosIx) (sv : Bool) (s : State) :
    (ps ++ [p]).foldl (fun t p => drawPhase p sv t) s =
      { s with
        seg := drawPattern s.cfg p (digitAt s.dig p)
        mask := lutPos s.cfg p
        lines := ⟨true, true, (lutPos s.cfg p).getLsbD 0⟩
        dev := (ps ++ [p]).foldl (fun d p => drawnDevice s.cfg s.dig p d) s.dev
        events := s.events ++ (ps ++ [p]).flatMap (drawnEvents s.cfg s.dig sv) } := by
  have hd (qs : List PosIx) (u : State) :
      (qs.foldl (fun t p => drawPhase p sv t) u).dev = qs.foldl (fun d p => drawnDevice u.cfg u.dig p d) u.dev := by
    induction qs generalizing u with
    | nil => rfl
    | cons q qs ih => rw [List.foldl_cons, ih, drawPhase_eq, List.foldl_cons]
  obtain ⟨h1, h2, h3, h4, h5, h6, h7, h8⟩ := drawPhases_keep ps sv s
  have h9 := hd ps s
  rw [List.foldl_append, List.foldl_append, List.foldl_cons, List.foldl_nil, List.foldl_cons, List.foldl_nil,
    drawPhase_eq, h1, h2, h3, h4, h5, h6, h7, h8, h9, List.flatMap_append, List.append_assoc, List.flatMap_singleton]

/-- Reset, where LATCH already stands at 1: the device is untouched. -/
theorem deviceAfter_resetEvents (n : Nat) (l : Lines) (d : Device) (h : l.latch = true) :
    deviceAfter n resetEvents l d = d := by
  simp [resetEvents, deviceAfter, deviceStep, lineStep, rising, h]

/-- The table read at a mapped index. -/
theorem lutSeg_of_lt (c : Config) (d : DigitReg) (h : d.toNat < 10) :
    lutSeg c d = c.digitBits.get ⟨d.toNat, h⟩ := by
  simp [lutSeg, h]

/-- The digits of a value, in closed form. -/
theorem decompDigits_eq (v : Nat) :
    decompDigits v =
      #v[BitVec.ofNat 4 (v / 1000 % 10), BitVec.ofNat 4 (v / 100 % 10),
        BitVec.ofNat 4 (v / 10 % 10), BitVec.ofNat 4 (v % 10)] := by
  simp only [decompDigits, Nat.div_div_eq_div_mul]

/-- A remainder by 10 is a digit the segment table has. -/
theorem toNat_ofNat_mod_ten (n : Nat) : (BitVec.ofNat 4 (n % 10)).toNat = n % 10 := by
  simp only [BitVec.toNat_ofNat]
  omega

/-- The four values of a position. -/
theorem posIx_cases (p : PosIx) : p = 0#2 ∨ p = 1#2 ∨ p = 2#2 ∨ p = 3#2 := by
  revert p; decide

/-- Each digit of a value is at most 9. -/
theorem digitAt_decompDigits_le (v : Nat) (k : PosIx) : (digitAt (decompDigits v) k).toNat ≤ 9 := by
  have h (n : Nat) : (BitVec.ofNat 4 (n % 10)).toNat ≤ 9 := by
    rw [toNat_ofNat_mod_ten]; omega
  rcases posIx_cases k with rfl | rfl | rfl | rfl
  · exact h _
  · exact h _
  · exact h _
  · exact h _

/-- The faults keep every bit of FLT that was set. -/
theorem setFault_keeps (c : FaultCode) (f : Byte) (k : Nat) (h : f.getLsbD k = true) :
    (setFault c f).getLsbD k = true := by
  simp [setFault, h]

end Sys2Proof.Machine
end

