-- ==== Sys2Proof/Laws/Run.lean ====
section
/-! SUPPORT. Steps and runs: what one step does with the first stimulus, and how a run is cut into steps. -/

namespace Sys2Proof.Machine

theorem step_of_env_nil {s : State} (h : s.env = []) : step s = .next s := by
  simp only [step, stepEnv, h]

theorem step_of_env_cons {s : State} {x : Stimulus} {rest : List Stimulus} (h : s.env = x :: rest) :
    step s = respond x { s with env := rest } := by
  simp only [step, stepEnv, h]

theorem runSteps_zero (s : State) : runSteps 0 s = .next s := rfl

theorem runSteps_succ_of_next {s t : State} (n : Nat) (h : step s = .next t) :
    runSteps (n + 1) s = runSteps n t := by
  simp only [runSteps, Host.Core.run]
  have h' : Sys2Proof.core.step s = .next t := h
  rw [h']

theorem runWord_of_decode {w : Cmd} {i : Instr} (s : State) (h : decode w = .ok i) : runWord w s = exec i s := by
  simp only [runWord, h]

theorem runWord_of_illegal {w : Cmd} {e : IllegalWord} (s : State) (h : decode w = .error e) :
    runWord w s = .next (raiseFault .illegalCmd s) := by
  simp only [runWord, h, executeIllegal]

end Sys2Proof.Machine
end

