-- ==== Sys2Proof/Laws/Exec.lean ====
section
/-! SUPPORT. Each command's dispatch arm as an equation over the shared operations: proofs about a command start from
its equation here and go on with the lemmas of Laws/Ops.lean, without unfolding `exec`. -/

namespace Sys2Proof.Machine

theorem exec_encd_of_lt {d : DigitReg} (s : State) (h : d.toNat < 10) :
    exec (.encd d) s = .next { s with seg := lutSeg s.cfg d } := by
  have : ¬ 10 ≤ d.toNat := by omega
  simp only [exec, execEncd, if_neg this]

theorem exec_encd_of_ge {d : DigitReg} (s : State) (h : 10 ≤ d.toNat) :
    exec (.encd d) s = .next (raiseFault .digitRange s) := by
  simp only [exec, execEncd, if_pos h]

theorem exec_encp (i : PosIx) (s : State) : exec (.encp i) s = .next { s with mask := lutPos s.cfg i } := rfl

theorem exec_dpclr (s : State) : exec .dpclr s = .next { s with seg := dpClear s.seg } := rfl

theorem exec_shout (b : Byte) (s : State) : exec (.shout b) s = .next (emit (serBits b) s) := rfl

theorem exec_wrsr (seg mask : Byte) (s : State) :
    exec (.wrsr seg mask) s = .next (emit (loadEvents seg mask) s) := rfl

theorem exec_load (s : State) : exec .load s = .next (emit (loadEvents s.seg s.mask) s) := rfl

theorem exec_decomp (v : Value) (s : State) : exec (.decomp v) s = .next (setValue v.toNat s) := rfl

theorem exec_phase (s : State) :
    exec .phase s =
      .next { drawPhase s.ph s.inputs.showVolt (setValue (value s.inputs) s) with ph := nextPosition s.cfg s.ph } := rfl

theorem exec_frame (s : State) :
    exec .frame s =
      .next ((framePositions s.cfg).foldl (fun t p => drawPhase p s.inputs.showVolt t) (setValue (value s.inputs) s)) :=
  rfl

/-- The positions of a frame, with the last one apart. -/
theorem framePositions_concat {c : Config} {n : Nat} (h : c.numDigits = n + 1) :
    framePositions c = (List.range n).map (BitVec.ofNat 2) ++ [BitVec.ofNat 2 n] := by
  simp [framePositions, h, List.range_succ]

/-- FRAME as a change of fields, the frame having n + 1 positions. -/
theorem exec_frame_eq (s : State) {n : Nat} (h : s.cfg.numDigits = n + 1) :
    let v := lowBits s.cfg.wVal (value s.inputs)
    exec .frame s = .next { s with
      val := v
      dig := decompDigits v
      seg := drawPattern s.cfg (BitVec.ofNat 2 n) (digitAt (decompDigits v) (BitVec.ofNat 2 n))
      mask := lutPos s.cfg (BitVec.ofNat 2 n)
      lines := ⟨true, true, (lutPos s.cfg (BitVec.ofNat 2 n)).getLsbD 0⟩
      dev := (framePositions s.cfg).foldl (fun d p => drawnDevice s.cfg (decompDigits v) p d) s.dev
      events := s.events ++ (framePositions s.cfg).flatMap
        (drawnEvents s.cfg (decompDigits v) s.inputs.showVolt) } := by
  rw [exec_frame, framePositions_concat h, drawPhases_concat]
  rfl

/-- Events emitted, and a position drawn, are the same whatever the environment does next. -/
theorem emit_withEnv (es : List Event) (s : State) (e : List Stimulus) :
    emit es { s with env := e } = { emit es s with env := e } := rfl

theorem drawPhase_withEnv (p : PosIx) (sv : Bool) (s : State) (e : List Stimulus) :
    drawPhase p sv { s with env := e } = { drawPhase p sv s with env := e } := by
  simp only [drawPhase, emit]

theorem drawPhases_withEnv (ps : List PosIx) (sv : Bool) (s : State) (e : List Stimulus) :
    ps.foldl (fun t p => drawPhase p sv t) { s with env := e } =
      { ps.foldl (fun t p => drawPhase p sv t) s with env := e } := by
  induction ps generalizing s with
  | nil => rfl
  | cons p ps ih => rw [List.foldl_cons, List.foldl_cons, drawPhase_withEnv, ih]

/-- A command neither reads nor writes what the environment does next. -/
theorem exec_env (i : Instr) (s : State) :
    ∃ t : State, ∀ e, exec i { s with env := e } = .next { t with env := e } := by
  cases i with
  | encd d =>
    rcases Nat.lt_or_ge d.toNat 10 with h | h
    · exact ⟨{ s with seg := lutSeg s.cfg d }, fun e => exec_encd_of_lt _ h⟩
    · exact ⟨raiseFault .digitRange s, fun e => exec_encd_of_ge _ h⟩
  | encp k => exact ⟨{ s with mask := lutPos s.cfg k }, fun e => exec_encp k _⟩
  | dpclr => exact ⟨{ s with seg := dpClear s.seg }, fun e => exec_dpclr _⟩
  | decomp v => exact ⟨setValue v.toNat s, fun e => exec_decomp v _⟩
  | shout b => exact ⟨emit (serBits b) s, fun e => by rw [exec_shout, emit_withEnv]⟩
  | wrsr a m => exact ⟨emit (loadEvents a m) s, fun e => by rw [exec_wrsr, emit_withEnv]⟩
  | load => exact ⟨emit (loadEvents s.seg s.mask) s, fun e => by rw [exec_load, emit_withEnv]⟩
  | phase =>
    let d := drawPhase s.ph s.inputs.showVolt (setValue (value s.inputs) s)
    refine ⟨{ d with ph := nextPosition s.cfg s.ph }, fun e => ?_⟩
    have h : setValue (value s.inputs) { s with env := e } = { setValue (value s.inputs) s with env := e } := rfl
    simp only [exec_phase, h, drawPhase_withEnv, d]
  | frame =>
    refine ⟨(framePositions s.cfg).foldl (fun t p => drawPhase p s.inputs.showVolt t) (setValue (value s.inputs) s),
      fun e => ?_⟩
    rw [← drawPhases_withEnv]
    rfl

/-- Nor does any stimulus but the reset that a command is presented with. -/
theorem respond_env (x : Stimulus) (s : State) (h : ∀ w, x ≠ .resetWithCommand w) :
    ∃ t : State, ∀ e, respond x { s with env := e } = .next { t with env := e } := by
  have word (w : Cmd) : ∃ t : State, ∀ e, runWord w { s with env := e } = .next { t with env := e } := by
    cases hw : decode w with
    | ok i => simpa only [runWord_of_decode _ hw] using exec_env i s
    | error r => exact ⟨raiseFault .illegalCmd s, fun e => runWord_of_illegal _ hw⟩
  cases x with
  | command w => simpa only [respond] using word w
  | tick => simpa only [respond] using word (encode (refreshInstr s.cfg.refreshOp))
  | reset => exact ⟨applyReset s, fun e => by simp only [respond, applyReset, emit]⟩
  | resetWithCommand w => exact absurd rfl (h w)
  | write p => exact ⟨writePort p s, fun e => by cases p <;> rfl⟩

end Sys2Proof.Machine
end

