-- ==== Sys2Proof/Laws/PerInstr.lean ====
section
/-! SUPPORT. Statements about every instruction as syntax, one lemma for each constructor. -/

namespace Sys2Proof.Laws.EncodeMatchesRow

/-- The word of an instruction matches its row of R72's table: `(w & mask) == match` (R71). -/
def Statement (i : Instr) : Prop := encode i &&& i.maskBits = i.matchBits

theorem encd (d : DigitReg) : Statement (.encd d) := by
  unfold Statement; revert d; decide

theorem encp (i : PosIx) : Statement (.encp i) := by
  unfold Statement; revert i; decide

theorem dpclr : Statement .dpclr := by unfold Statement; decide

theorem shout (b : Byte) : Statement (.shout b) := by
  apply Cmd.eq_of_bits; intro k hk
  interval_cases k <;> simp [encode, Instr.maskBits, Instr.matchBits]

theorem wrsr (seg mask : Byte) : Statement (.wrsr seg mask) := by
  apply Cmd.eq_of_bits; intro k hk
  interval_cases k <;> simp [encode, Instr.maskBits, Instr.matchBits]

theorem decomp (v : Value) : Statement (.decomp v) := by
  apply Cmd.eq_of_bits; intro k hk
  interval_cases k <;> simp [encode, Instr.maskBits, Instr.matchBits]

theorem phase : Statement .phase := by unfold Statement; decide

theorem frame : Statement .frame := by unfold Statement; decide

theorem load : Statement .load := by unfold Statement; decide

end Sys2Proof.Laws.EncodeMatchesRow
end

