-- ==== Sys2Proof/Tests/Slice0.lean ====
section
/-! SUPPORT. Tests of the model. The expected values are those of spec/95_test_vectors.md and of the rules' own examples,
never the model's. -/

namespace Sys2Proof.Tests

open Sys2Proof Sys2Proof.Machine

/-! ### Well-formedness: an ill-formed term for each check -/

theorem test_encd_range : (SourceCmd.encd 15).wellFormed = true ∧ (SourceCmd.encd 16).wellFormed = false := by decide
theorem test_encp_range : (SourceCmd.encp 3).wellFormed = true ∧ (SourceCmd.encp 4).wellFormed = false := by decide
theorem test_shout_range : (SourceCmd.shout 255).wellFormed = true ∧ (SourceCmd.shout 256).wellFormed = false := by decide
theorem test_wrsr_range : (SourceCmd.wrsr 255 255).wellFormed = true ∧ (SourceCmd.wrsr 256 0).wellFormed = false ∧
    (SourceCmd.wrsr 0 256).wellFormed = false := by decide
theorem test_decomp_range : (SourceCmd.decomp 16383).wellFormed = true ∧
    (SourceCmd.decomp 16384).wellFormed = false := by decide
theorem test_draw_range : (SourceCmd.draw 15 3).wellFormed = true ∧ (SourceCmd.draw 16 0).wellFormed = false ∧
    (SourceCmd.draw 0 4).wellFormed = false := by decide
theorem test_drawdp_range : (SourceCmd.drawdp 15 3).wellFormed = true ∧ (SourceCmd.drawdp 16 0).wellFormed = false ∧
    (SourceCmd.drawdp 0 4).wellFormed = false := by decide

theorem test_defaults_well_formed : defaultConfig.WellFormed := by decide
/-- A segment pattern with bit 7 clear breaks R121. -/
theorem test_pattern_without_bit_seven :
    ¬ ({ defaultConfig with digitBits := defaultDigitBits.set 3 0x30#8 }).WellFormed := by decide
/-- A mask with two bits breaks R124. -/
theorem test_mask_two_bits : ¬ ({ defaultConfig with digitPos := #v[0x03#8, 0x02#8, 0x04#8, 0x08#8] }).WellFormed := by
  decide
/-- A mask in bit 7 breaks R124. -/
theorem test_mask_bit_seven : ¬ ({ defaultConfig with digitPos := #v[0x80#8, 0x02#8, 0x04#8, 0x08#8] }).WellFormed := by
  decide
/-- Two equal masks break R124. -/
theorem test_masks_equal : ¬ ({ defaultConfig with digitPos := #v[0x02#8, 0x02#8, 0x04#8, 0x08#8] }).WellFormed := by
  decide
/-- Two segments on one bit break R6. -/
theorem test_seg_map_not_injective : ¬ ({ defaultConfig with segMap := #v[0, 0, 2, 3, 4, 5, 6] }).WellFormed := by
  decide

/-- No digit position, more positions than PH counts, and a decimal point on none of the positions. -/
theorem test_num_digits_zero : ¬ ({ defaultConfig with numDigits := 0, dpIndex := 0#2 }).WellFormed := by decide
theorem test_num_digits_five : ¬ ({ defaultConfig with numDigits := 5 }).WellFormed := by decide
theorem test_dp_index_out : ¬ ({ defaultConfig with numDigits := 2, dpIndex := 2#2 }).WellFormed := by decide
/-- The values of R6's table. -/
theorem test_source_values : defaultConfig.SourceValues := by decide

/-! ### Decoding: words written out from R72's patterns, one for each command, and the illegal words of vector 2.9 -/

theorem test_decode_encd : decode 0b000101110000000000000000#24 = .ok (.encd 7#4) := rfl
theorem test_decode_encp : decode 0b001000110000000000000000#24 = .ok (.encp 3#2) := rfl
theorem test_decode_dpclr : decode 0b001100000000000000000000#24 = .ok .dpclr := rfl
theorem test_decode_shout : decode 0b010000001010010100000000#24 = .ok (.shout 0xA5#8) := rfl
theorem test_decode_wrsr : decode 0b010100000001001000000010#24 = .ok (.wrsr 0x12#8 0x02#8) := rfl
theorem test_decode_decomp : decode 0b011000000000000111111101#24 = .ok (.decomp 509#14) := rfl
theorem test_decode_phase : decode 0b011100000000000000000000#24 = .ok .phase := rfl
theorem test_decode_frame : decode 0b100000000000000000000000#24 = .ok .frame := rfl
theorem test_decode_load : decode 0b100100000000000000000000#24 = .ok .load := rfl

theorem test_reserved_zero : decode 0x000000#24 = .error .reservedOpcode := rfl
theorem test_reserved_b : decode 0xB12345#24 = .error .reservedOpcode := rfl
theorem test_reserved_f : decode 0xFFFFFF#24 = .error .reservedOpcode := rfl
theorem test_mbz_encd : decode 0x100001#24 = .error .mustBeZeroBitSet := rfl
theorem test_mbz_encp : decode 0x240000#24 = .error .mustBeZeroBitSet := rfl
theorem test_mbz_dpclr : decode 0x300001#24 = .error .mustBeZeroBitSet := rfl
theorem test_mbz_shout : decode 0x410001#24 = .error .mustBeZeroBitSet := rfl
theorem test_mbz_wrsr : decode 0x510000#24 = .error .mustBeZeroBitSet := rfl
theorem test_mbz_decomp : decode 0x604000#24 = .error .mustBeZeroBitSet := rfl
theorem test_mbz_phase : decode 0x700001#24 = .error .mustBeZeroBitSet := rfl
theorem test_mbz_frame : decode 0x800100#24 = .error .mustBeZeroBitSet := rfl
theorem test_mbz_load : decode 0x900010#24 = .error .mustBeZeroBitSet := rfl

/-- The rows of R72's table do not overlap: any two differ in a bit both fix. -/
theorem test_rows_disjoint : opcodeRows.Pairwise fun r q => (r.1 ^^^ q.1) &&& r.2 &&& q.2 ≠ 0#24 := by decide

/-- Each row's word, with its operands zero, is fetched and run as the first command after reset. -/
theorem test_first_command_after_reset :
    (opcodeRows.all fun r =>
      match step (State.reset.withFetchWord 24 r.1.toNat) with
      | .next _ => true
      | .fault _ => false
      | .refused _ => false) = true := by decide

/-! ### One step on a small state -/

/-- The reset state of R40 with known ports and the device at 0x0000, after the first command of vector 2.1. -/
def base : State := { State.reset with inputs := ⟨false, 5, 9, 165⟩, dev := ⟨0x0000, 0x0000⟩ }

/-- The base state in voltage mode. -/
def volts : State := { base with inputs := ⟨true, 5, 9, 165⟩ }

/-- The next state, or the base state where there is none. -/
def after (o : Host.Outcome State Fault Refusal) : State :=
  match o with
  | .next s => s
  | .fault _ => base
  | .refused _ => base

theorem test_encd_seven : (after (exec (.encd 7#4) base)).seg = 0xF8#8 := by decide
theorem test_encd_twelve : (after (exec (.encd 12#4) base)).flt = 0x02#8 ∧
    (after (exec (.encd 12#4) base)).seg = 0xFF#8 := by decide
theorem test_encp_three : (after (exec (.encp 3#2) base)).mask = 0x08#8 := by decide
theorem test_dpclr : (after (exec .dpclr { base with seg := 0x92#8 })).seg = 0x12#8 := by decide
/-- Vector 2.1, corner: CHAIN keeps its old low byte above the byte sent. -/
theorem test_shout_chain : (after (exec (.shout 0xA5#8) { base with dev := ⟨0xC001, 0xC001⟩ })).dev =
    ⟨0x01A5, 0xC001⟩ := by decide
/-- Vector 2.1: the full event list of SHOUT 0xA5, by its DATA levels at the rising edges. -/
theorem test_shout_bits : sampledBits (serBits 0xA5#8) base.lines =
    [true, false, true, false, false, true, false, true] := by decide
theorem test_wrsr_out : (after (exec (.wrsr 0x12#8 0x02#8) base)).dev.out = 0x1202 := by decide
theorem test_wrsr_lines : (after (exec (.wrsr 0x12#8 0x02#8) base)).lines = ⟨true, true, false⟩ := by decide
theorem test_load_out : (after (exec .load { base with seg := 0xB0#8, mask := 0x04#8 })).dev.out = 0xB004 := by decide
/-- Vector 2.5. -/
theorem test_decomp_max : (after (exec (.decomp 16383#14) base)).dig = #v[6#4, 3#4, 8#4, 3#4] := by decide
theorem test_decomp_lost_digit : (after (exec (.decomp 12345#14) base)).dig = #v[2#4, 3#4, 4#4, 5#4] := by decide
/-- Vectors 2.8.1 and 2.8.2. -/
theorem test_phase_zero : (after (exec .phase base)).dev.out = 0xC001 ∧ (after (exec .phase base)).ph = 1#2 ∧
    (after (exec .phase base)).dig = #v[0#4, 5#4, 0#4, 9#4] := by decide
theorem test_phase_one : (after (exec .phase { base with ph := 1#2 })).seg = 0x12#8 ∧
    (after (exec .phase { base with ph := 1#2 })).mask = 0x02#8 := by decide
/-- Vector 2.7.2: the loads of FRAME in voltage mode; the SampleReq stands after the first load's 50 events. -/
theorem test_frame_volts : latchedValues 16 (after (exec .frame volts)).events ⟨true, false, false⟩ ⟨0, 0⟩ =
    [0xC001, 0x7902, 0x8204, 0x9208] := by decide
theorem test_frame_sample : (after (exec .frame { volts with events := [] })).events[50]? = some .sampleReq := by decide
/-- R6: other values of the parameters. Two positions: PH wraps from 1 to 0 and FRAME loads twice, the point on position 0. -/
def two : State := { base with cfg := { defaultConfig with numDigits := 2, dpIndex := 0#2, wVal := 8, chainLen := 24 } }
theorem test_two_positions : (after (exec .phase { two with ph := 1#2 })).ph = 0#2 ∧
    (after (exec .frame { two with events := [] })).events.length = 100 ∧
    (after (exec .phase two)).seg.getLsbD 7 = false := by decide
/-- An 8-bit VAL takes 509 mod 256, and a 24-bit chain keeps a byte above the load's two. -/
theorem test_widths : (after (exec (.decomp 509#14) two)).val = 253 ∧
    (after (exec (.wrsr 0x12#8 0x02#8) { two with dev := ⟨0xABCD, 0⟩ })).dev.out = 0xCD1202 := by decide
/-- Vector 2.2: what is lit. 0x1202 lights "5." at position 1, and 0x7F80 selects no position. -/
theorem test_lit_five : pointLit defaultConfig 0x1202 1#2 = true ∧
    segmentLit defaultConfig 0x1202 1#2 .b = false ∧ segmentLit defaultConfig 0x1202 1#2 .a = true ∧
    selected defaultConfig 0x1202 0#2 = false := by decide
theorem test_lit_none : selected defaultConfig 0x7F80 0#2 = false ∧ selected defaultConfig 0x7F80 3#2 = false := by
  decide
/-- Vector 2.10: reset at the end of P1 clears the registers and leaves CHAIN and OUT. -/
theorem test_reset_keeps_device :
    (applyReset { base with flt := 0x03#8, lines := ⟨true, true, false⟩, dev := ⟨0x9008, 0x9008⟩ }).dev =
      ⟨0x9008, 0x9008⟩ := by decide
/-- R211 and R212: 16 ms a frame, and FRAME in a 4 ms tick overruns it. -/
theorem test_timing : defaultConfig.frameTimeUs = 16000 ∧
    ¬ ({ defaultConfig with refreshOp := .frame }).timingContract := by
  refine ⟨rfl, ?_⟩
  show ¬ 4 * 4000 ≤ 4000
  decide
/-- R39: the readback port shows FLT and the lines. -/
theorem test_readback : (readback (after (exec (.encd 12#4) base))).flt = 0x02#8 ∧
    (readback base).lines = ⟨true, false, false⟩ := by decide

/-! ### The assembler (R83, R84) -/

/-- `WRSR 0xFF, 0x00 ; x` is the word of program P3. -/
theorem test_assemble_wrsr : assembleLine .phase
    [' ', 'W', 'R', 'S', 'R', ' ', '0', 'x', 'F', 'F', ',', ' ', '0', 'x', '0', '0', ' ', ';', 'x'] =
    some [0x50FF00#24] := by decide
theorem test_assemble_drawdp : assembleLine .phase ['D', 'R', 'A', 'W', 'D', 'P', ' ', '3', ',', '2'] =
    some [0x130000#24, 0x300000#24, 0x220000#24, 0x900000#24] := by decide
theorem test_assemble_refuses : assembleLine .phase ['E', 'N', 'C', 'P', ' ', '4'] = none ∧
    assembleLine .phase ['N', 'O', 'P'] = none := by decide
theorem test_assemble_text : assemble .frame ['R', 'E', 'F', 'R', 'E', 'S', 'H', '\n', ';', 'x', '\n', 'E', 'N', 'C', 'D', ' ', '7'] =
    some [0x800000#24, 0x170000#24] := by decide

/-! ### Witnesses: a concrete state and operands for the hypotheses of each statement that has any -/

/-- The base state with one stimulus presented. -/
def facing (x : Stimulus) : State := { base with env := [x] }

theorem witness_ResetSetsTheValuesOfR40 : (facing .reset).env = .reset :: [] := rfl
theorem witness_PowerUpResetGivesStateReset :
    let s : State := { State.reset with events := [], env := [.reset], seg := 0x12#8 }
    s.cfg = defaultConfig ∧ s.events = [] ∧ s.env = [.reset] ∧ s.inputs = State.reset.inputs ∧
      s.dev = State.reset.dev ∧ s.lines.latch = true := ⟨rfl, rfl, rfl, rfl, rfl, rfl⟩
theorem witness_ResetTakesEffectBeforeItsCommand :
    (facing (.resetWithCommand 0x700000#24)).env = .resetWithCommand 0x700000#24 :: [] := rfl
theorem witness_EncodeOfDecodeIsTheWord : decode 0x50C001#24 = .ok (.wrsr 0xC0#8 0x01#8) := rfl
theorem witness_StepRunsTheDecodedCommand :
    (facing (.command 0x603FFF#24)).env = .command 0x603FFF#24 :: [] ∧
      decode 0x603FFF#24 = .ok (.decomp 16383#14) := ⟨rfl, rfl⟩
theorem witness_TickRunsTheRefreshCommand_phase :
    (facing .tick).env = .tick :: [] ∧ (facing .tick).cfg.refreshOp = .phase := ⟨rfl, rfl⟩
theorem witness_TickRunsTheRefreshCommand_frame :
    let s : State := { facing .tick with cfg := { defaultConfig with refreshOp := .frame } }
    s.env = .tick :: [] ∧ s.cfg.refreshOp = .frame := ⟨rfl, rfl⟩
theorem witness_PortWriteChangesOnlyItsPort_showVolt :
    (facing (.write (.showVolt true))).env = .write (.showVolt true) :: [] := rfl
theorem witness_PortWriteChangesOnlyItsPort_minutes :
    (facing (.write (.minutes 127))).env = .write (.minutes 127) :: [] := rfl
theorem witness_PortWriteChangesOnlyItsPort_seconds :
    (facing (.write (.seconds 63))).env = .write (.seconds 63) :: [] := rfl
/-- A number that a port has no room for. -/
theorem witness_PortWriteChangesOnlyItsPort_cut :
    (facing (.write (.seconds 64))).env = .write (.seconds 64) :: [] ∧ ¬ 64 < 2 ^ base.cfg.wSec := ⟨rfl, by decide⟩
theorem witness_PortWriteChangesOnlyItsPort_voltCode :
    (facing (.write (.voltCode 16383))).env = .write (.voltCode 16383) :: [] := rfl
theorem witness_IdleStepKeepsEverything : base.env = [] := rfl
theorem witness_StimuliTakeEffectOneAtATime :
    let xs : List Stimulus := [.tick, .resetWithCommand 0x900000#24, .write (.showVolt true)]
    ({ base with env := xs ++ [.tick] } : State).env = xs ++ [.tick] := rfl
theorem witness_EveryStepKeepsTheInvariant : base.Inv where
  cfg_wf := test_defaults_well_formed
  flt_reserved := by decide
  dig_of_val := by decide
  dig_range := by intro k; revert k; decide
  latch_high := rfl
  mask_entry := .inl rfl
  lines_of_events := fun _ => rfl
  ph_range := by decide
  val_width := by decide
  ports_width := by decide
  dev_width := by decide
theorem witness_FaultingWordOnlySetsItsFltBit_reserved_zero :
    (facing (.command 0x000000#24)).env = .command 0x000000#24 :: [] ∧ (0x000000#24 >>> 20).toNat = 0 := ⟨rfl, rfl⟩
theorem witness_FaultingWordOnlySetsItsFltBit_reserved_ten :
    (facing (.command 0xA00000#24)).env = .command 0xA00000#24 :: [] ∧ 10 ≤ (0xA00000#24 >>> 20).toNat :=
  ⟨rfl, by decide⟩
theorem witness_FaultingWordOnlySetsItsFltBit_mustBeZero :
    (facing (.command 0x900010#24)).env = .command 0x900010#24 :: [] ∧
      ∃ r ∈ opcodeRows, 0x900010#24 >>> 20 = r.1 >>> 20 ∧ 0x900010#24 &&& r.2 ≠ r.1 := ⟨rfl, by decide⟩
theorem witness_FaultingWordOnlySetsItsFltBit_digit :
    (facing (.command 0x1A0000#24)).env = .command 0x1A0000#24 :: [] ∧
      ∃ d : DigitReg, 10 ≤ d.toNat ∧ 0x1A0000#24 = encode (.encd d) := ⟨rfl, 10#4, by decide, rfl⟩
theorem witness_CauseTableByCommand_illegal :
    (facing (.command 0x100001#24)).env = .command 0x100001#24 :: [] ∧
      decode 0x100001#24 = .error .mustBeZeroBitSet := ⟨rfl, rfl⟩
theorem witness_CauseTableByCommand_digit :
    (facing (.command 0x1A0000#24)).env = .command 0x1A0000#24 :: [] ∧
      decode 0x1A0000#24 = .ok (.encd 10#4) ∧ 10 ≤ (10#4).toNat := ⟨rfl, rfl, by decide⟩
theorem witness_CauseTableByCommand_none :
    (facing (.command 0x190000#24)).env = .command 0x190000#24 :: [] ∧ decode 0x190000#24 = .ok (.encd 9#4) ∧
      ∀ d : DigitReg, Instr.encd 9#4 = .encd d → d.toNat < 10 := ⟨rfl, rfl, by decide⟩
theorem witness_FaultBitsStaySetUntilReset :
    (facing .tick).env.head? ≠ some .reset ∧ ∀ w, (facing .tick).env.head? ≠ some (.resetWithCommand w) :=
  ⟨by decide, by simp [facing]⟩
theorem witness_RunOfUnfaultingCommandsIsCorrect :
    let is : List Instr := [.encd 9#4, .frame]
    let s : State := { base with env := is.map (fun i => .command (encode i)) ++ [] }
    (∀ d : DigitReg, .encd d ∈ is → d.toNat < 10) ∧ s.env = is.map (fun i => .command (encode i)) ++ [] ∧ s.noFault :=
  ⟨by decide, rfl, rfl⟩
theorem witness_OnlyPhaseReadsOrWritesPh : Instr.phase = .phase ∧ Instr.frame ≠ .phase ∧ base.cfg.numDigits = 4 := by
  decide
theorem witness_PhaseAdvancesPhModuloNumDigits : two.cfg.WellFormed ∧ two.cfg.numDigits = 2 := by decide
theorem witness_DecompCutsToTheWidthOfVal : 14 ≤ base.cfg.wVal ∧ ¬ 14 ≤ two.cfg.wVal := by decide
theorem witness_PortsAreReadOnlyWhereTheRulesSay_other : Instr.load ≠ .phase ∧ Instr.load ≠ .frame := by decide
theorem witness_PortsAreReadOnlyWhereTheRulesSay_time :
    base.inputs.showVolt = false ∧ (⟨false, 5, 9, 330⟩ : Inputs) = { base.inputs with voltCode := 330 } :=
  ⟨rfl, rfl⟩
theorem witness_PortsAreReadOnlyWhereTheRulesSay_volts :
    volts.inputs.showVolt = true ∧
      (⟨true, 99, 59, 165⟩ : Inputs) = { volts.inputs with minutes := 99, seconds := 59 } := ⟨rfl, rfl⟩
theorem witness_EncdSetsSegOrFaults : (9#4).toNat < 10 ∧ 10 ≤ (10#4).toNat := by decide
theorem witness_EncpSetsMask : base.cfg.WellFormed := test_defaults_well_formed
theorem witness_EncdThenDpclrLightsOnlyThePoint : base.cfg.WellFormed ∧ (9#4).toNat < 10 :=
  ⟨test_defaults_well_formed, by decide⟩
theorem witness_DeviceActsOnRisingEdgesOnly : base.lines.clk = false ∧ (Lines.mk false true true).latch = false ∧
    ¬ (Event.pin .clk false = .pin .clk true ∧ base.lines.clk = false) ∧
    ¬ (Event.pin .clk false = .pin .latch true ∧ base.lines.latch = false) := by decide
theorem witness_LitSegmentsFollowTheLoadedBytes : 16 ≤ base.cfg.chainLen := by decide
theorem witness_OneHotLoadLightsOnePosition : base.cfg.WellFormed ∧ 16 ≤ base.cfg.chainLen :=
  ⟨test_defaults_well_formed, by decide⟩
theorem witness_WrsrLoadsItsTwoBytes : base.cfg.chainLen = 16 := rfl
theorem witness_LoadSendsSegAndMask : base.cfg.chainLen = 16 := rfl
theorem witness_PhaseDrawsThePositionOfPh : base.cfg.chainLen = 16 := rfl
theorem witness_ShoutDoesNotReachTheNextLoad : base.cfg.chainLen = 16 ∧ base.cfg.chainLen ≤ 16 := by decide
theorem witness_DecompSplitsItsValue : 14 ≤ base.cfg.wVal := by decide
theorem witness_FrameDrawsItsPositions : 1 ≤ base.cfg.numDigits ∧ base.cfg.SourceValues := by decide
theorem witness_EventCountOfEachCommand : base.cfg.WellFormed := test_defaults_well_formed
theorem witness_SampleIsRequestedOnlyAtTheDecimalPoint : base.cfg.WellFormed := test_defaults_well_formed
theorem witness_ValueOfThePorts_time :
    let s : State := { base with inputs := ⟨false, 127, 63, 0⟩ }
    (Instr.phase = .phase ∨ Instr.phase = .frame) ∧ s.cfg.SourceValues ∧ s.inputs.minutes < 2 ^ s.cfg.wMin ∧
      s.inputs.seconds < 2 ^ s.cfg.wSec ∧ s.inputs.showVolt = false := ⟨.inl rfl, by decide, by decide, by decide, rfl⟩
theorem witness_ValueOfThePorts_volts :
    let s : State := { base with inputs := ⟨true, 0, 0, 16383⟩ }
    (Instr.frame = .phase ∨ Instr.frame = .frame) ∧ s.cfg.SourceValues ∧ s.inputs.voltCode < 2 ^ s.cfg.wVc ∧
      s.inputs.showVolt = true := ⟨.inr rfl, by decide, by decide, rfl⟩
theorem witness_SuccessivePhasesCyclePh :
    let s : State := { base with env := List.replicate 4 (.command 0x700000#24) ++ [] }
    s.cfg.WellFormed ∧ s.ph = 0#2 ∧ s.env = List.replicate (3 + 1) (.command 0x700000#24) ++ [] :=
  ⟨test_defaults_well_formed, rfl, rfl⟩
theorem witness_PhasesOfAFrameEqualOneFrame :
    let s : State := { base with env := List.replicate 4 (.command 0x700000#24) ++ [.tick] }
    s.cfg.WellFormed ∧ s.ph = 0#2 ∧ s.env = List.replicate s.cfg.numDigits (.command 0x700000#24) ++ [.tick] :=
  ⟨test_defaults_well_formed, rfl, rfl⟩
theorem witness_PointIsLitAtDpIndexOnly : base.cfg.WellFormed ∧ 16 ≤ base.cfg.chainLen :=
  ⟨test_defaults_well_formed, by decide⟩
theorem witness_TimeModeFrameShowsMinutesAndSeconds :
    let s : State := { base with inputs := ⟨false, 99, 59, 0⟩ }
    s.cfg.SourceValues ∧ s.inputs.showVolt = false ∧ s.inputs.minutes ≤ 99 ∧ s.inputs.seconds ≤ 59 :=
  ⟨by decide, rfl, by decide, by decide⟩
theorem witness_VoltageModeFrameShowsTheCode :
    let s : State := { base with inputs := ⟨true, 0, 0, 330⟩ }
    s.cfg.SourceValues ∧ s.inputs.showVolt = true ∧ s.inputs.voltCode ≤ 330 ∧ 3 ≤ 9 ∧ 0 ≤ 9 ∧
      s.inputs.voltCode = 100 * 3 + 10 * 3 + 0 := ⟨by decide, rfl, by decide, by decide, by decide, rfl⟩
theorem witness_SampleShowsInTheNextPhase :
    let s : State := { volts with
      env := [.command 0x700000#24, .write (.voltCode 200), .command 0x700000#24] }
    s.inputs.showVolt = true ∧ s.cfg.chainLen = 16 ∧
      s.env = .command 0x700000#24 :: .write (.voltCode 200) :: .command 0x700000#24 :: [] := ⟨rfl, rfl, rfl⟩
theorem witness_SampleShowsInTheNextPhase_frame :
    let s : State := { volts with
      env := [.command 0x800000#24, .write (.voltCode 200), .command 0x800000#24] }
    s.inputs.showVolt = true ∧ s.cfg.SourceValues ∧
      s.env = .command 0x800000#24 :: .write (.voltCode 200) :: .command 0x800000#24 :: [] := ⟨rfl, by decide, rfl⟩
theorem witness_PseudoInstructionsShowTheirDigit_fault :
    base.cfg.chainLen = 16 ∧ ({ base with env := (drawCmds 10#4 3#2).map (fun c => .command (encode c)) ++ [] } : State).env =
        (drawCmds 10#4 3#2).map (fun c => .command (encode c)) ++ [] ∧
      ({ base with env := (drawdpCmds 10#4 3#2).map (fun c => .command (encode c)) ++ [] } : State).env =
        (drawdpCmds 10#4 3#2).map (fun c => .command (encode c)) ++ [] := ⟨rfl, rfl, rfl⟩
theorem witness_PseudoInstructionsShowTheirDigit :
    ({ base with env := (drawCmds 9#4 3#2).map (fun c => .command (encode c)) ++ [] } : State).env =
        (drawCmds 9#4 3#2).map (fun c => .command (encode c)) ++ [] ∧
      ({ base with env := (drawdpCmds 9#4 3#2).map (fun c => .command (encode c)) ++ [] } : State).env =
        (drawdpCmds 9#4 3#2).map (fun c => .command (encode c)) ++ [] ∧
      ({ base with env := blankCmds.map (fun c => .command (encode c)) ++ [] } : State).env =
        blankCmds.map (fun c => .command (encode c)) ++ [] ∧
      ({ base with env := (refreshCmds base.cfg.refreshOp).map (fun c => .command (encode c)) ++ [] } : State).env =
        (refreshCmds base.cfg.refreshOp).map (fun c => .command (encode c)) ++ [] := ⟨rfl, rfl, rfl, rfl⟩

end Sys2Proof.Tests
end

section
/-! PROOFS. The parameters, the ports and the digits (spec/00_scope.md R6): what each writer leaves, and that VAL, PH and
the ports keep to their widths. -/

namespace Sys2Proof.Machine

/-! ### The equations of the parts -/

/-- The next position, as a number: with at most four positions, PH's two bits lose nothing. -/
theorem toNat_nextPosition {c : Config} (h : c.WellFormed) (p : PosIx) :
    (nextPosition c p).toNat = (p.toNat + 1) % c.numDigits := by
  obtain ⟨-, -, -, -, hpos, hle, -⟩ := h
  have hlt : (p.toNat + 1) % c.numDigits < c.numDigits := Nat.mod_lt _ hpos
  exact Nat.mod_eq_of_lt (show (p.toNat + 1) % c.numDigits < 2 ^ 2 by omega)

/-- The position after any position is a position of the frame. -/
theorem toNat_nextPosition_lt {c : Config} (h : c.WellFormed) (p : PosIx) :
    (nextPosition c p).toNat < c.numDigits := by
  rw [toNat_nextPosition h]
  obtain ⟨-, -, -, -, hpos, -⟩ := h
  exact Nat.mod_lt _ hpos

theorem value_of_time {p : Inputs} (h : p.showVolt = false) : value p = p.minutes * 100 + p.seconds := by
  simp [value, h]

theorem value_of_volts {p : Inputs} (h : p.showVolt = true) : value p = p.voltCode := by
  simp [value, h]

/-- A port write, as a change of the ports alone. -/
theorem writePort_eq (p : PortWrite) (s : State) : writePort p s = { s with inputs := (writePort p s).inputs } := by
  cases p <;> rfl

/-- A port write keeps the ports within their widths. -/
theorem writePort_width (p : PortWrite) {s : State}
    (h : s.inputs.minutes < 2 ^ s.cfg.wMin ∧ s.inputs.seconds < 2 ^ s.cfg.wSec ∧ s.inputs.voltCode < 2 ^ s.cfg.wVc) :
    (writePort p s).inputs.minutes < 2 ^ s.cfg.wMin ∧ (writePort p s).inputs.seconds < 2 ^ s.cfg.wSec ∧
      (writePort p s).inputs.voltCode < 2 ^ s.cfg.wVc := by
  obtain ⟨hm, hs, hv⟩ := h
  cases p with
  | showVolt b => exact ⟨hm, hs, hv⟩
  | minutes m => exact ⟨lowBits_lt _ _, hs, hv⟩
  | seconds x => exact ⟨hm, lowBits_lt _ _, hv⟩
  | voltCode c => exact ⟨hm, hs, lowBits_lt _ _⟩

/-- Both refresh commands leave in VAL the value of the ports, as far as W_VAL bits go. -/
theorem exec_refresh_val {i : Instr} (s : State) (h : i = .phase ∨ i = .frame) :
    ∃ t, exec i s = .next t ∧ t.val = lowBits s.cfg.wVal (value s.inputs) := by
  obtain rfl | rfl := h
  · exact ⟨_, exec_phase s, rfl⟩
  · obtain ⟨-, -, hval, -⟩ :=
      drawPhases_keep (framePositions s.cfg) s.inputs.showVolt (setValue (value s.inputs) s)
    exact ⟨_, exec_frame s, hval⟩

/-! ### The chain of a frame -/

/-- CHAIN after drawing one position. -/
def drawnChain (c : Config) (ds : Vector DigitReg 4) (x : Nat) (p : PosIx) : Nat :=
  lowBits c.chainLen (2 ^ 16 * x + (drawPattern c p (digitAt ds p) ++ lutPos c p).toNat)

theorem drawnDevice_eq (c : Config) (ds : Vector DigitReg 4) (p : PosIx) (d : Device) :
    drawnDevice c ds p d = ⟨drawnChain c ds d.chain p, drawnChain c ds d.chain p⟩ := rfl

/-- Where the chain is as long as a load, it holds the two bytes of the last position alone. -/
theorem drawnChain_of_chainLen {c : Config} (h : c.chainLen = 16) (ds : Vector DigitReg 4) (x : Nat) (p : PosIx) :
    drawnChain c ds x p = (drawPattern c p (digitAt ds p) ++ lutPos c p).toNat := by
  rw [drawnChain, h, lowBits, Nat.mul_add_mod]
  exact Nat.mod_eq_of_lt (BitVec.isLt _)

theorem foldl_drawnDevice_chain (c : Config) (ds : Vector DigitReg 4) (ps : List PosIx) (d : Device) :
    (ps.foldl (fun d p => drawnDevice c ds p d) d).chain = ps.foldl (drawnChain c ds) d.chain := by
  induction ps generalizing d with
  | nil => rfl
  | cons p ps ih => exact ih (drawnDevice c ds p d)

/-- Each load latches what it shifted in, so after at least one drawing OUT equals CHAIN. -/
theorem foldl_drawnDevice_concat (c : Config) (ds : Vector DigitReg 4) (ps : List PosIx) (p : PosIx) (d : Device) :
    (ps ++ [p]).foldl (fun d p => drawnDevice c ds p d) d =
      ⟨(ps ++ [p]).foldl (drawnChain c ds) d.chain, (ps ++ [p]).foldl (drawnChain c ds) d.chain⟩ := by
  rw [List.foldl_concat, List.foldl_concat, drawnDevice_eq, foldl_drawnDevice_chain]

/-- The events of one position, the condition on the position apart from the one on the mode. -/
theorem drawnEvents_eq (c : Config) (ds : Vector DigitReg 4) (sv : Bool) (p : PosIx) :
    drawnEvents c ds sv p =
      (if p = c.dpIndex then (if sv = true ∨ c.sampleInTimeMode = true then [.sampleReq] else []) else []) ++
        loadEvents (drawPattern c p (digitAt ds p)) (lutPos c p) := by
  rw [drawnEvents, sampleEvents, ite_and]

theorem drawPattern_of_eq {c : Config} {p : PosIx} (h : p = c.dpIndex) (d : DigitReg) :
    drawPattern c p d = dpClear (lutSeg c d) := if_pos h

theorem drawPattern_of_ne {c : Config} {p : PosIx} (h : p ≠ c.dpIndex) (d : DigitReg) :
    drawPattern c p d = lutSeg c d := if_neg h

/-- At the number of positions R6 gives, a frame draws 0, 1, 2 and 3. -/
theorem framePositions_of_four {c : Config} (h : c.numDigits = 4) : framePositions c = [0#2, 1#2, 2#2, 3#2] := by
  rw [framePositions, h]; rfl

end Sys2Proof.Machine
end

section
/-! PROOFS. `State.Inv` under each operation and each command: an operation's lemma says which clauses it touches and
why they still hold, and a command's proof chains them. -/

namespace Sys2Proof.Machine

variable {s : State}

/-! ### The operations -/

/-- Events keep the invariant when they leave LATCH high: the lines and the device change by them alone. -/
theorem inv_emit (h : s.Inv) (es : List Event) (hl : (linesAfter es s.lines).latch = true) : (emit es s).Inv :=
  { h with
    latch_high := hl
    lines_of_events := fun l => by rw [emit_events, linesAfter_append, h.lines_of_events, emit_lines]
    dev_width := deviceAfter_lt es s.lines h.dev_width }

/-- The two causes are bits 0 and 1, so the reserved bits of FLT stay as they were. -/
theorem setFault_reserved (c : FaultCode) (f : Byte) : setFault c f &&& 0xFC#8 = f &&& 0xFC#8 := by
  have hbit : (1#8 <<< faultBit c) &&& 0xFC#8 = 0#8 := by cases c <;> rfl
  rw [setFault, BitVec.and_comm, BitVec.and_or_distrib_left, BitVec.and_comm _ (1#8 <<< faultBit c), hbit,
    BitVec.or_zero, BitVec.and_comm]

theorem inv_raiseFault (h : s.Inv) (c : FaultCode) : (raiseFault c s).Inv :=
  { h with flt_reserved := (setFault_reserved c s.flt).trans h.flt_reserved }

theorem inv_setValue (h : s.Inv) (v : Nat) : (setValue v s).Inv :=
  { h with
    dig_of_val := rfl
    dig_range := digitAt_decompDigits_le _
    val_width := lowBits_lt _ _ }

theorem inv_setSegMask (h : s.Inv) (seg : Byte) {mask : Byte}
    (hm : mask = 0x00#8 ∨ ∃ i : PosIx, mask = lutPos s.cfg i) : ({ s with seg := seg, mask := mask } : State).Inv :=
  { h with mask_entry := hm }

theorem inv_setPh (h : s.Inv) {p : PosIx} (hp : p.toNat < s.cfg.numDigits) : ({ s with ph := p } : State).Inv :=
  { h with ph_range := hp }

/-- The invariant does not speak of what the environment does next. -/
theorem inv_setEnv (h : s.Inv) (e : List Stimulus) : ({ s with env := e } : State).Inv := { h with }

theorem inv_presentWord (h : s.Inv) (w : Cmd) : (presentWord w s).Inv := inv_setEnv h _

theorem inv_writePort (h : s.Inv) (p : PortWrite) : (writePort p s).Inv := by
  rw [writePort_eq]
  exact { h with ports_width := writePort_width p h.ports_width }

/-- A load leaves LATCH high (R106). -/
theorem inv_loadEvents (h : s.Inv) (seg mask : Byte) : (emit (loadEvents seg mask) s).Inv :=
  inv_emit h _ (by rw [linesAfter_loadEvents])

theorem inv_drawPhase (h : s.Inv) (p : PosIx) (sv : Bool) : (drawPhase p sv s).Inv :=
  inv_emit (inv_setSegMask h _ (.inr ⟨p, rfl⟩)) _ (by rw [linesAfter_append, linesAfter_loadEvents])

theorem inv_drawPhases (h : s.Inv) (ps : List PosIx) (sv : Bool) :
    (ps.foldl (fun t p => drawPhase p sv t) s).Inv := by
  induction ps generalizing s with
  | nil => exact h
  | cons p ps ih => exact ih (inv_drawPhase h p sv)

/-! ### Reset -/

theorem decompDigits_zero : decompDigits 0 = #v[0#4, 0#4, 0#4, 0#4] := rfl

/-- The reset input sets the registers to values that meet the invariant by themselves (R40); its events drive all three
lines, so the lines are theirs whatever stood before. -/
theorem inv_applyReset (h : s.Inv) : (applyReset s).Inv where
  cfg_wf := h.cfg_wf
  flt_reserved := by rw [applyReset_flt]; rfl
  dig_of_val := decompDigits_zero.symm
  dig_range := digitAt_decompDigits_le 0
  latch_high := rfl
  mask_entry := .inl rfl
  lines_of_events l := by rw [applyReset_events, linesAfter_append]; rfl
  ph_range := by
    obtain ⟨-, -, -, -, hpos, -⟩ := h.cfg_wf
    exact hpos
  val_width := Nat.two_pow_pos _
  ports_width := h.ports_width
  dev_width := deviceAfter_lt resetEvents s.lines h.dev_width

/-- The parameters at R6's values meet their constraints. -/
theorem defaultConfig_wellFormed : defaultConfig.WellFormed := by decide

/-- Settles O3, clause by clause: the registers hold R40's values, and the free values are cut to their widths. -/
theorem stateResetMeetsTheInvariant : Obligations.StateResetMeetsTheInvariant where
  cfg_wf := defaultConfig_wellFormed
  flt_reserved := rfl
  dig_of_val := decompDigits_zero.symm
  dig_range := digitAt_decompDigits_le 0
  latch_high := rfl
  mask_entry := .inl rfl
  lines_of_events _ := rfl
  ph_range := by decide
  val_width := Nat.two_pow_pos _
  ports_width := ⟨lowBits_lt _ _, lowBits_lt _ _, lowBits_lt _ _⟩
  dev_width := ⟨lowBits_lt _ _, lowBits_lt _ _⟩

/-! ### The commands, the stimuli, the step -/

/-- Every command completes and keeps the invariant. -/
theorem exec_keeps_inv (h : s.Inv) (i : Instr) : ∃ t, exec i s = .next t ∧ t.Inv := by
  cases i with
  | encd d =>
    rcases Nat.lt_or_ge d.toNat 10 with hd | hd
    · exact ⟨_, exec_encd_of_lt s hd, inv_setSegMask h _ h.mask_entry⟩
    · exact ⟨_, exec_encd_of_ge s hd, inv_raiseFault h _⟩
  | encp k => exact ⟨_, exec_encp k s, inv_setSegMask h s.seg (.inr ⟨k, rfl⟩)⟩
  | dpclr => exact ⟨_, exec_dpclr s, inv_setSegMask h _ h.mask_entry⟩
  | shout b =>
    refine ⟨_, exec_shout b s, inv_emit h _ ?_⟩
    rw [linesAfter_serBits]
    exact h.latch_high
  | wrsr seg mask => exact ⟨_, exec_wrsr seg mask s, inv_loadEvents h seg mask⟩
  | decomp v => exact ⟨_, exec_decomp v s, inv_setValue h _⟩
  | phase =>
    exact ⟨_, exec_phase s, inv_setPh (inv_drawPhase (inv_setValue h _) _ _) (toNat_nextPosition_lt h.cfg_wf s.ph)⟩
  | frame => exact ⟨_, exec_frame s, inv_drawPhases (inv_setValue h _) _ _⟩
  | load => exact ⟨_, exec_load s, inv_loadEvents h s.seg s.mask⟩

theorem runWord_keeps_inv (h : s.Inv) (w : Cmd) : ∃ t, runWord w s = .next t ∧ t.Inv := by
  cases hw : decode w with
  | ok i => simpa only [runWord_of_decode s hw] using exec_keeps_inv h i
  | error e => exact ⟨_, runWord_of_illegal s hw, inv_raiseFault h _⟩

theorem respond_keeps_inv (h : s.Inv) (x : Stimulus) : ∃ t, respond x s = .next t ∧ t.Inv := by
  cases x with
  | command w => exact runWord_keeps_inv h w
  | tick => exact runWord_keeps_inv h _
  | reset => exact ⟨_, rfl, inv_applyReset h⟩
  | resetWithCommand w => exact ⟨_, rfl, inv_presentWord (inv_applyReset h) w⟩
  | write p => exact ⟨_, rfl, inv_writePort h p⟩

/-- Settles O17: an idle step changes nothing, and any other is a response from a state that meets the invariant. -/
theorem everyStepKeepsTheInvariant : Obligations.EveryStepKeepsTheInvariant := by
  intro s h
  cases he : s.env with
  | nil => exact ⟨s, step_of_env_nil he, h⟩
  | cons x rest =>
    rw [step_of_env_cons he]
    exact respond_keeps_inv (inv_setEnv h rest) x

end Sys2Proof.Machine
end

section
/-! PROOFS. The statements on the values, the widths and the positions of R6. -/

namespace Sys2Proof.Machine

/-- Settles O42: at R6's widths the greatest time-mode value is 127 * 100 + 63, which 14 bits hold. -/
theorem valueOfThePorts : Obligations.ValueOfThePorts := by
  intro i s hi
  obtain ⟨t, ht, hval⟩ := exec_refresh_val s hi
  refine ⟨t, ht, fun hv => ?_, fun hv => ?_, fun hsrc hmin hsec hv => ?_, fun hsrc hvc hv => ?_⟩
  · rw [hval, value_of_time hv, lowBits]
  · rw [hval, value_of_volts hv, lowBits]
  · obtain ⟨-, -, -, hwMin, hwSec, -, hwVal⟩ := hsrc
    rw [hwMin] at hmin
    rw [hwSec] at hsec
    have hle : s.inputs.minutes * 100 + s.inputs.seconds ≤ 12763 := by omega
    rw [hval, value_of_time hv, hwVal, lowBits_of_lt (by omega)]
    exact ⟨rfl, hle⟩
  · obtain ⟨-, -, -, -, -, hwVc, hwVal⟩ := hsrc
    rw [hval, value_of_volts hv, hwVal, ← hwVc, lowBits_of_lt hvc]

/-- Settles O46: the whole next state is `exec_frame_eq`; at R6's values the fold and the events are written out over
the positions 0, 1, 2, 3, of which only 1 is DP_INDEX. -/
theorem frameDrawsItsPositions : Obligations.FrameDrawsItsPositions := by
  intro s hn
  have hsucc : s.cfg.numDigits = (s.cfg.numDigits - 1) + 1 := by omega
  set ds := decompDigits (lowBits s.cfg.wVal (value s.inputs)) with hds
  refine ⟨(framePositions s.cfg).foldl (drawnChain s.cfg ds) s.dev.chain,
    (framePositions s.cfg).flatMap (drawnEvents s.cfg ds s.inputs.showVolt), ?_, rfl, ?_, fun hsrc => ?_⟩
  · have hdev := foldl_drawnDevice_concat s.cfg ds ((List.range (s.cfg.numDigits - 1)).map (BitVec.ofNat 2))
      (BitVec.ofNat 2 (s.cfg.numDigits - 1)) s.dev
    rw [← framePositions_concat hsucc] at hdev
    rw [exec_frame_eq s hsucc, ← hds, hdev]
    rfl
  · exact congrArg (List.flatMap · _) (funext (drawnEvents_eq s.cfg ds s.inputs.showVolt))
  · obtain ⟨hnum, hdp, hlen, -⟩ := hsrc
    have h0 : (0#2 : PosIx) ≠ s.cfg.dpIndex := by rw [hdp]; decide
    have h2 : (2#2 : PosIx) ≠ s.cfg.dpIndex := by rw [hdp]; decide
    have h3 : (3#2 : PosIx) ≠ s.cfg.dpIndex := by rw [hdp]; decide
    rw [framePositions_of_four hnum]
    constructor
    · simp only [List.foldl_cons, List.foldl_nil, drawnChain_of_chainLen hlen, drawPattern_of_ne h3]
      rfl
    · simp only [List.flatMap_cons, List.flatMap_nil, drawnEvents_eq, if_neg h0, if_pos hdp.symm, if_neg h2, if_neg h3,
        drawPattern_of_ne h0, drawPattern_of_eq hdp.symm, drawPattern_of_ne h2, drawPattern_of_ne h3,
        List.nil_append, List.append_nil, List.append_assoc]
      rfl

/-- Settles O13: the step is the port write, and each port takes its low bits. -/
theorem portWriteChangesOnlyItsPort : Obligations.PortWriteChangesOnlyItsPort := by
  intro s p rest he
  refine ⟨(writePort p { s with env := rest }).inputs, ?_, ?_⟩
  · exact (step_of_env_cons he).trans (congrArg Host.Outcome.next (writePort_eq p _))
  · cases p <;> rfl

/-- Settles O54 by `toNat_nextPosition`. -/
theorem phaseAdvancesPhModuloNumDigits : Obligations.PhaseAdvancesPhModuloNumDigits := fun s h =>
  ⟨_, exec_phase s, toNat_nextPosition h s.ph, toNat_nextPosition_lt h s.ph⟩

/-- Settles O55: VAL takes the low W_VAL bits of the operand, which has at most 14. -/
theorem decompCutsToTheWidthOfVal : Obligations.DecompCutsToTheWidthOfVal := by
  intro v s
  refine ⟨lowBits s.cfg.wVal v.toNat, ?_, rfl, lowBits_lt _ _, fun h => ?_⟩
  · rw [exec_decomp, setValue, decompDigits_eq]
  · exact lowBits_of_lt (v.isLt.trans_le (Nat.pow_le_pow_right two_pos h))

end Sys2Proof.Machine
end

section
/-! PROOFS. What each stimulus does to the registers, the lines and the device (spec/10_state.md): the events a command
appends, which registers it writes, and that the lines and the device follow the events. -/

namespace Sys2Proof.Machine

/-! ### Edges and reset -/

/-- A rising edge is a line at 0 driven to 1 (R30). -/
theorem rising_iff (old new : Bool) : rising old new = true ↔ new = true ∧ old = false := by
  simp [rising, and_comm]

/-- Settles O31: both writes of the device stand under `rising`. -/
theorem deviceActsOnRisingEdgesOnly : Obligations.DeviceActsOnRisingEdgesOnly := by
  refine fun n l d => ⟨fun hclk => ?_, fun hlatch => ?_, fun e hc hl => ?_⟩
  · rw [deviceStep, if_pos ((rising_iff _ _).2 ⟨rfl, hclk⟩), shiftIn, lowBits]
    cases l.data <;> rfl
  · rw [deviceStep, if_pos ((rising_iff _ _).2 ⟨rfl, hlatch⟩)]
  · match e with
    | .pin .latch b => exact if_neg fun hr => hl (by simpa using (rising_iff _ _).1 hr)
    | .pin .clk b => exact if_neg fun hr => hc (by simpa using (rising_iff _ _).1 hr)
    | .pin .data _ => rfl
    | .sampleReq => rfl

/-- Reset's events: CLK is only driven to 0, so CHAIN is kept, and OUT changes only where LATCH stood at 0 (R202). -/
theorem deviceAfter_resetEvents_eq (n : Nat) (l : Lines) (d : Device) :
    deviceAfter n resetEvents l d = if l.latch then d else ⟨d.chain, d.chain⟩ := by
  cases hl : l.latch with
  | true => exact deviceAfter_resetEvents n l d hl
  | false => simp [resetEvents, deviceAfter, deviceStep, lineStep, rising, hl]

/-- Settles O1: the registers' values are those of `applyReset`, and its three events drive all three lines. -/
theorem resetSetsTheValuesOfR40 : Obligations.ResetSetsTheValuesOfR40 := by
  intro s rest he
  rw [step_of_env_cons he, ← deviceAfter_resetEvents_eq s.cfg.chainLen]
  rfl

/-! ### What drives the lines and the device -/

/-- `t` comes of `s` by the events `es`: they are appended to the sequence, the lines and the device follow them in
order (R29, R36, R180), and the parameters stay (R34). -/
structure DrivenBy (es : List Event) (s t : State) : Prop where
  events : t.events = s.events ++ es
  lines : t.lines = linesAfter es s.lines
  dev : t.dev = deviceAfter s.cfg.chainLen es s.lines s.dev
  cfg : t.cfg = s.cfg

/-- A change of no line, device register, event or parameter is driven by no event. -/
theorem drivenBy_nil {s t : State} (he : t.events = s.events) (hl : t.lines = s.lines) (hd : t.dev = s.dev)
    (hc : t.cfg = s.cfg) : DrivenBy [] s t :=
  ⟨by rw [he, List.append_nil], hl, hd, hc⟩

theorem DrivenBy.trans {es fs : List Event} {s t u : State} (h : DrivenBy es s t) (k : DrivenBy fs t u) :
    DrivenBy (es ++ fs) s u where
  events := by rw [k.events, h.events, List.append_assoc]
  lines := by rw [k.lines, h.lines, linesAfter_append]
  dev := by rw [k.dev, h.cfg, h.lines, h.dev, deviceAfter_append]
  cfg := k.cfg.trans h.cfg

theorem drivenBy_emit (es : List Event) (s : State) : DrivenBy es s (emit es s) :=
  ⟨emit_events s es, emit_lines s es, emit_dev s es, emit_cfg s es⟩

theorem drivenBy_drawPhase (p : PosIx) (sv : Bool) (s : State) :
    DrivenBy (drawnEvents s.cfg s.dig sv p) s (drawPhase p sv s) :=
  ⟨drawPhase_events s p sv, drawPhase_lines s p sv, drawPhase_dev s p sv, drawPhase_cfg s p sv⟩

theorem drivenBy_drawPhases (ps : List PosIx) (sv : Bool) (s : State) :
    DrivenBy (ps.flatMap (drawnEvents s.cfg s.dig sv)) s (ps.foldl (fun t p => drawPhase p sv t) s) := by
  induction ps generalizing s with
  | nil => exact drivenBy_nil rfl rfl rfl rfl
  | cons p ps ih => exact (drivenBy_drawPhase p sv s).trans (ih (drawPhase p sv s))

/-- The digits the refresh commands draw: those of the ports' value, as far as VAL holds it (R147, R149). -/
def portDigits (s : State) : Vector DigitReg 4 := decompDigits (lowBits s.cfg.wVal (value s.inputs))

/-- The events a command appends; `exec_drivenBy` ties them to `exec`. -/
def commandEvents (i : Instr) (s : State) : List Event :=
  match i with
  | .encd _ => []
  | .encp _ => []
  | .dpclr => []
  | .decomp _ => []
  | .shout b => serBits b
  | .wrsr seg mask => loadEvents seg mask
  | .load => loadEvents s.seg s.mask
  | .phase => drawnEvents s.cfg (portDigits s) s.inputs.showVolt s.ph
  | .frame => (framePositions s.cfg).flatMap (drawnEvents s.cfg (portDigits s) s.inputs.showVolt)

/-- Every command completes, and drives the lines and the device by its events alone. -/
theorem exec_drivenBy (i : Instr) (s : State) : ∃ t, exec i s = .next t ∧ DrivenBy (commandEvents i s) s t := by
  cases i with
  | encd d =>
    rcases Nat.lt_or_ge d.toNat 10 with hd | hd
    · exact ⟨_, exec_encd_of_lt s hd, drivenBy_nil rfl rfl rfl rfl⟩
    · exact ⟨_, exec_encd_of_ge s hd, drivenBy_nil rfl rfl rfl rfl⟩
  | encp k => exact ⟨_, exec_encp k s, drivenBy_nil rfl rfl rfl rfl⟩
  | dpclr => exact ⟨_, exec_dpclr s, drivenBy_nil rfl rfl rfl rfl⟩
  | decomp v => exact ⟨_, exec_decomp v s, drivenBy_nil rfl rfl rfl rfl⟩
  | shout b => exact ⟨_, exec_shout b s, drivenBy_emit _ s⟩
  | wrsr seg mask => exact ⟨_, exec_wrsr seg mask s, drivenBy_emit _ s⟩
  | load => exact ⟨_, exec_load s, drivenBy_emit _ s⟩
  | phase =>
    have h := drivenBy_drawPhase s.ph s.inputs.showVolt (setValue (value s.inputs) s)
    exact ⟨_, exec_phase s, h.events, h.lines, h.dev, h.cfg⟩
  | frame =>
    have h := drivenBy_drawPhases (framePositions s.cfg) s.inputs.showVolt (setValue (value s.inputs) s)
    exact ⟨_, exec_frame s, h.events, h.lines, h.dev, h.cfg⟩

theorem runWord_drivenBy (w : Cmd) (s : State) : ∃ t es, runWord w s = .next t ∧ DrivenBy es s t := by
  cases hw : decode w with
  | ok i =>
    obtain ⟨t, ht, hes⟩ := exec_drivenBy i s
    exact ⟨t, commandEvents i s, (runWord_of_decode s hw).trans ht, hes⟩
  | error e => exact ⟨_, [], runWord_of_illegal s hw, drivenBy_nil rfl rfl rfl rfl⟩

theorem respond_drivenBy (x : Stimulus) (s : State) : ∃ t es, respond x s = .next t ∧ DrivenBy es s t := by
  have hreset : DrivenBy resetEvents s (applyReset s) := ⟨rfl, rfl, rfl, rfl⟩
  cases x with
  | command w => exact runWord_drivenBy w s
  | tick => exact runWord_drivenBy _ s
  | reset => exact ⟨_, resetEvents, rfl, hreset⟩
  | resetWithCommand w => exact ⟨_, resetEvents, rfl, hreset.events, hreset.lines, hreset.dev, hreset.cfg⟩
  | write p =>
    exact ⟨_, [], rfl, drivenBy_nil (writePort_events s p) (writePort_lines s p) (writePort_dev s p) (writePort_cfg s p)⟩

/-- Settles O16: an idle step appends nothing, and any other is a response to the first stimulus. -/
theorem everyStepDrivesLinesAndDeviceByItsEvents : Obligations.EveryStepDrivesLinesAndDeviceByItsEvents := by
  intro s
  cases he : s.env with
  | nil => exact ⟨s, [], step_of_env_nil he, (List.append_nil _).symm, rfl, rfl, rfl⟩
  | cons x rest =>
    obtain ⟨t, es, ht, h⟩ := respond_drivenBy x { s with env := rest }
    exact ⟨t, es, (step_of_env_cons he).trans ht, h.events, h.lines, h.dev, h.cfg⟩

/-! ### Sample requests -/

theorem count_sampleReq_serBits (b : Byte) : (serBits b).count .sampleReq = 0 := by
  simp [serBits, bitEvents]

theorem count_sampleReq_loadEvents (seg mask : Byte) : (loadEvents seg mask).count .sampleReq = 0 := by
  simp [loadEvents, count_sampleReq_serBits]

/-- Drawing positions asks for one sample each time it comes to DP_INDEX in a mode that samples (R146). -/
theorem count_sampleReq_drawnEvents (c : Config) (ds : Vector DigitReg 4) (sv : Bool) (ps : List PosIx) :
    (ps.flatMap (drawnEvents c ds sv)).count .sampleReq =
      if sv = true ∨ c.sampleInTimeMode = true then ps.count c.dpIndex else 0 := by
  induction ps with
  | nil => simp
  | cons p ps ih =>
    rw [List.flatMap_cons, List.count_append, ih, drawnEvents_eq, List.count_append,
      count_sampleReq_loadEvents, List.count_cons, Nat.add_zero]
    by_cases hp : p = c.dpIndex <;> by_cases hm : sv = true ∨ c.sampleInTimeMode = true <;>
      simp [hp, hm, Nat.add_comm]

/-- A frame comes to DP_INDEX once: its positions are distinct, and DP_INDEX is one of them. -/
theorem count_dpIndex_framePositions {c : Config} (h : c.WellFormed) : (framePositions c).count c.dpIndex = 1 := by
  obtain ⟨-, -, -, -, -, hle, hdp⟩ := h
  have hmem : c.dpIndex ∈ framePositions c :=
    List.mem_map.2 ⟨c.dpIndex.toNat, List.mem_range.2 hdp, by rw [BitVec.ofNat_toNat, BitVec.setWidth_eq]⟩
  have hinj : ∀ a ∈ List.range c.numDigits, ∀ b ∈ List.range c.numDigits,
      BitVec.ofNat 2 a = BitVec.ofNat 2 b → a = b := by
    intro a ha b hb hab
    rw [List.mem_range] at ha hb
    have := congrArg BitVec.toNat hab
    simp only [BitVec.toNat_ofNat] at this
    omega
  exact List.count_eq_one_of_mem (List.nodup_range.map_on hinj) hmem

/-- Settles O26, from the events of each command. -/
theorem sampleIsRequestedOnlyAtTheDecimalPoint : Obligations.SampleIsRequestedOnlyAtTheDecimalPoint := by
  intro i s hwf
  obtain ⟨t, ht, hes⟩ := exec_drivenBy i s
  refine ⟨t, commandEvents i s, ht, hes.events, ?_⟩
  cases i with
  | encd _ => simp [commandEvents]
  | encp _ => simp [commandEvents]
  | dpclr => simp [commandEvents]
  | decomp _ => simp [commandEvents]
  | shout b => simp [commandEvents, count_sampleReq_serBits]
  | wrsr seg mask => simp [commandEvents, count_sampleReq_loadEvents]
  | load => simp [commandEvents, count_sampleReq_loadEvents]
  | phase =>
    have h := count_sampleReq_drawnEvents s.cfg (portDigits s) s.inputs.showVolt [s.ph]
    rw [List.flatMap_singleton, List.count_singleton] at h
    rw [commandEvents, h, ← ite_and]
    simp [and_comm]
  | frame =>
    rw [commandEvents, count_sampleReq_drawnEvents, count_dpIndex_framePositions hwf]
    simp

/-! ### Which commands write each register -/

/-- Settles O22, command by command: FRAME's clauses are `drawPhases_keep`, and the others' are the operations' laws. -/
theorem eachRegisterHasItsWriters : Obligations.EachRegisterHasItsWriters := by
  intro i s
  cases i with
  | encd d =>
    rcases Nat.lt_or_ge d.toNat 10 with hd | hd
    · exact ⟨_, exec_encd_of_lt s hd, by simp⟩
    · exact ⟨_, exec_encd_of_ge s hd, by simp⟩
  | encp k => exact ⟨_, exec_encp k s, by simp⟩
  | dpclr => exact ⟨_, exec_dpclr s, by simp⟩
  | decomp v => exact ⟨_, exec_decomp v s, by simp⟩
  | shout b => exact ⟨_, exec_shout b s, by simp⟩
  | wrsr seg mask => exact ⟨_, exec_wrsr seg mask s, by simp⟩
  | load => exact ⟨_, exec_load s, by simp⟩
  | phase => exact ⟨_, exec_phase s, by simp⟩
  | frame =>
    obtain ⟨hcfg, -, -, hph, hflt, hin, henv, -⟩ :=
      drawPhases_keep (framePositions s.cfg) s.inputs.showVolt (setValue (value s.inputs) s)
    exact ⟨_, exec_frame s, by simp [hcfg, hph, hflt, hin, henv]⟩

/-- A command keeps every bit of FLT that was set: only ENCD writes FLT, and it only sets a bit (R27). -/
theorem exec_keeps_faultBits (i : Instr) (s : State) :
    ∃ t, exec i s = .next t ∧ ∀ k, s.flt.getLsbD k = true → t.flt.getLsbD k = true := by
  by_cases hi : ∃ d, i = .encd d
  · obtain ⟨d, rfl⟩ := hi
    rcases Nat.lt_or_ge d.toNat 10 with hd | hd
    · exact ⟨_, exec_encd_of_lt s hd, fun _ hk => hk⟩
    · exact ⟨_, exec_encd_of_ge s hd, setFault_keeps _ s.flt⟩
  · obtain ⟨t, ht, -, -, -, -, -, -, -, hflt, -⟩ := eachRegisterHasItsWriters i s
    refine ⟨t, ht, fun k hk => ?_⟩
    rwa [hflt fun d hd => hi ⟨d, hd⟩]

theorem runWord_keeps_faultBits (w : Cmd) (s : State) :
    ∃ t, runWord w s = .next t ∧ ∀ k, s.flt.getLsbD k = true → t.flt.getLsbD k = true := by
  cases hw : decode w with
  | ok i => simpa only [runWord_of_decode s hw] using exec_keeps_faultBits i s
  | error e => exact ⟨_, runWord_of_illegal s hw, setFault_keeps _ s.flt⟩

/-- Settles O20: no step but a reset clears a bit of FLT. -/
theorem faultBitsStaySetUntilReset : Obligations.FaultBitsStaySetUntilReset := by
  intro s hr hrc
  cases he : s.env with
  | nil => exact ⟨s, step_of_env_nil he, fun _ hk => hk⟩
  | cons x rest =>
    rw [step_of_env_cons he]
    rw [he, List.head?_cons] at hr hrc
    cases x with
    | command w => exact runWord_keeps_faultBits w _
    | tick => exact runWord_keeps_faultBits _ _
    | reset => exact absurd rfl hr
    | resetWithCommand w => exact absurd rfl (hrc w)
    | write p => exact ⟨_, rfl, fun k hk => by rwa [writePort_flt]⟩

end Sys2Proof.Machine
end

section
/-! PROOFS. What a command does not read: PH is read by PHASE alone (R24), and the ports by PHASE and FRAME, which take
their value and their mode (R32, R140). -/

namespace Sys2Proof.Machine

theorem emit_withPhPorts (es : List Event) (s : State) (q : PosIx) (p : Inputs) :
    emit es { s with ph := q, inputs := p } = { emit es s with ph := q, inputs := p } := rfl

theorem drawPhase_withPhPorts (k : PosIx) (sv : Bool) (s : State) (q : PosIx) (p : Inputs) :
    drawPhase k sv { s with ph := q, inputs := p } = { drawPhase k sv s with ph := q, inputs := p } := rfl

theorem drawPhases_withPhPorts (ks : List PosIx) (sv : Bool) (s : State) (q : PosIx) (p : Inputs) :
    ks.foldl (fun t k => drawPhase k sv t) { s with ph := q, inputs := p } =
      { ks.foldl (fun t k => drawPhase k sv t) s with ph := q, inputs := p } := by
  induction ks generalizing s with
  | nil => rfl
  | cons k ks ih => rw [List.foldl_cons, List.foldl_cons, drawPhase_withPhPorts, ih]

/-- Two contents of the ports that the refresh commands cannot tell apart: one value and one mode. -/
def SameReading (p q : Inputs) : Prop := value p = value q ∧ p.showVolt = q.showVolt

/-- A mode reads only its own ports (R140). -/
theorem sameReading_of_mode {p q : Inputs}
    (h : (p.showVolt = false ∧ q = { p with voltCode := q.voltCode }) ∨
      (p.showVolt = true ∧ q = { p with minutes := q.minutes, seconds := q.seconds })) : SameReading q p := by
  simp only [Inputs.ext_iff] at h
  obtain ⟨hv, hsv, hm, hs, -⟩ | ⟨hv, hsv, -, -, hc⟩ := h
  · exact ⟨by rw [value_of_time (hsv.trans hv), value_of_time hv, hm, hs], hsv⟩
  · exact ⟨by rw [value_of_volts (hsv.trans hv), value_of_volts hv, hc], hsv⟩

/-- A command other than PHASE neither reads nor writes PH, and neither reads nor writes the ports, but that FRAME takes
their reading. -/
theorem exec_withPhPorts {i : Instr} (hi : i ≠ .phase) (s : State) :
    ∃ t : State, ∀ q p, (i = .frame → SameReading p s.inputs) →
      exec i { s with ph := q, inputs := p } = .next { t with ph := q, inputs := p } := by
  cases i with
  | encd d =>
    rcases Nat.lt_or_ge d.toNat 10 with hd | hd
    · exact ⟨{ s with seg := lutSeg s.cfg d }, fun q p _ => exec_encd_of_lt _ hd⟩
    · exact ⟨raiseFault .digitRange s, fun q p _ => exec_encd_of_ge _ hd⟩
  | encp k => exact ⟨{ s with mask := lutPos s.cfg k }, fun q p _ => exec_encp k _⟩
  | dpclr => exact ⟨{ s with seg := dpClear s.seg }, fun q p _ => exec_dpclr _⟩
  | decomp v => exact ⟨setValue v.toNat s, fun q p _ => exec_decomp v _⟩
  | shout b => exact ⟨emit (serBits b) s, fun q p _ => by rw [exec_shout, emit_withPhPorts]⟩
  | wrsr seg mask => exact ⟨emit (loadEvents seg mask) s, fun q p _ => by rw [exec_wrsr, emit_withPhPorts]⟩
  | load => exact ⟨emit (loadEvents s.seg s.mask) s, fun q p _ => by rw [exec_load, emit_withPhPorts]⟩
  | phase => exact absurd rfl hi
  | frame =>
    refine ⟨(framePositions s.cfg).foldl (fun t p => drawPhase p s.inputs.showVolt t) (setValue (value s.inputs) s),
      fun q p h => ?_⟩
    obtain ⟨hval, hsv⟩ := h rfl
    rw [exec_frame, hval, hsv, ← drawPhases_withPhPorts]
    rfl

/-- PHASE takes of the ports their reading alone. -/
theorem exec_phase_withPorts (s : State) :
    ∃ t, exec .phase s = .next t ∧
      ∀ p, SameReading p s.inputs → exec .phase { s with inputs := p } = .next { t with inputs := p } := by
  refine ⟨_, exec_phase s, fun p ⟨hval, hsv⟩ => ?_⟩
  rw [exec_phase, hval, hsv]
  rfl

/-- Settles O23: PHASE's clauses are its equation, and the others' are `exec_withPhPorts` with the ports as they are. -/
theorem onlyPhaseReadsOrWritesPh : Obligations.OnlyPhaseReadsOrWritesPh := by
  intro i s
  by_cases hi : i = .phase
  · subst hi
    refine ⟨_, exec_phase s, fun _ => ⟨rfl, rfl, fun hn => ?_⟩, fun h => absurd rfl h⟩
    rw [nextPosition, hn]
    exact Nat.mod_eq_of_lt (Nat.mod_lt _ four_pos)
  · obtain ⟨t, h⟩ := exec_withPhPorts hi s
    have hq (q : PosIx) := h q s.inputs fun _ => ⟨rfl, rfl⟩
    exact ⟨{ t with ph := s.ph, inputs := s.inputs }, hq s.ph, fun h => absurd h hi, fun _ => ⟨rfl, hq⟩⟩

/-- Settles O24: whichever clause holds, a refresh command finds the same reading in the ports. -/
theorem portsAreReadOnlyWhereTheRulesSay : Obligations.PortsAreReadOnlyWhereTheRulesSay := by
  intro i s q
  by_cases hi : i = .phase
  · subst hi
    obtain ⟨t, ht, h⟩ := exec_phase_withPorts s
    exact ⟨t, ht, fun hq => h q (sameReading_of_mode (hq.resolve_left fun hne => hne.1 rfl))⟩
  · obtain ⟨t, h⟩ := exec_withPhPorts hi s
    refine ⟨{ t with ph := s.ph, inputs := s.inputs }, h s.ph s.inputs fun _ => ⟨rfl, rfl⟩, fun hq => ?_⟩
    exact h s.ph q fun hf => sameReading_of_mode (hq.resolve_left fun hne => hne.2 hf)

end Sys2Proof.Machine
end

section
/-! PROOFS. The order of effects and what a read finds (spec/20_memory.md): the stimuli one at a time (R61), the bytes
of a load at once (R55, R58), and a sample between two refresh commands (R62). -/

namespace Sys2Proof.Machine

/-! ### Runs in parts -/

theorem runSteps_add_of_next {m : Nat} {s t : State} (n : Nat) (h : runSteps m s = .next t) :
    runSteps (m + n) s = runSteps n t := by
  induction m generalizing s with
  | zero =>
    cases h
    rw [Nat.zero_add]
  | succ m ih =>
    obtain ⟨u, -, hu, -⟩ := everyStepDrivesLinesAndDeviceByItsEvents s
    rw [runSteps_succ_of_next m hu] at h
    rw [Nat.add_right_comm, runSteps_succ_of_next (m + n) hu, ih h]

/-- One step of a state written with its next stimulus in front. -/
theorem step_withEnv_cons (s : State) (x : Stimulus) (e : List Stimulus) :
    step { s with env := x :: e } = respond x { s with env := e } := rfl

theorem respondAll_cons_of_next {x : Stimulus} {s t : State} (xs : List Stimulus) (h : respond x s = .next t) :
    respondAll (x :: xs) s = respondAll xs t := by
  simp only [respondAll, h]

theorem respondAll_append_of_next {xs : List Stimulus} {s t : State} (ys : List Stimulus)
    (h : respondAll xs s = .next t) : respondAll (xs ++ ys) s = respondAll ys t := by
  induction xs generalizing s with
  | nil =>
    cases h
    rfl
  | cons x xs ih =>
    obtain ⟨u, -, hu, -⟩ := respond_drivenBy x s
    rw [respondAll_cons_of_next xs hu] at h
    rw [List.cons_append, respondAll_cons_of_next _ hu, ih h]

/-! ### One stimulus after the other -/

/-- One stimulus: its parts take effect in as many steps, and no part reads what comes behind it (R61, R174). -/
theorem parts_take_effect (x : Stimulus) (s : State) :
    ∃ t : State, respondAll x.parts { s with env := [] } = .next { t with env := [] } ∧
      ∀ e, runSteps x.parts.length { s with env := x :: e } = .next { t with env := e } := by
  by_cases hx : ∃ w, x = .resetWithCommand w
  · obtain ⟨w, rfl⟩ := hx
    obtain ⟨t, ht⟩ := respond_env (.command w) (applyReset s) (by simp)
    refine ⟨t, ?_, fun e => ?_⟩
    · have hreset : respond .reset { s with env := [] } = .next { applyReset s with env := [] } := rfl
      exact (respondAll_cons_of_next [.command w] hreset).trans (respondAll_cons_of_next [] (ht []))
    · have hreset : step { s with env := .resetWithCommand w :: e } =
          .next { applyReset s with env := .command w :: e } := step_withEnv_cons s _ e
      have hcommand := (step_withEnv_cons (applyReset s) (.command w) e).trans (ht e)
      exact (runSteps_succ_of_next 1 hreset).trans (runSteps_succ_of_next 0 hcommand)
  · have hparts : x.parts = [x] := by
      cases x with
      | resetWithCommand w => exact absurd ⟨w, rfl⟩ hx
      | _ => rfl
    obtain ⟨t, ht⟩ := respond_env x s fun w hw => hx ⟨w, hw⟩
    rw [hparts]
    exact ⟨t, respondAll_cons_of_next [] (ht []), fun e =>
      runSteps_succ_of_next 0 ((step_withEnv_cons s x e).trans (ht e))⟩

/-- Settles O15, by induction on the stimuli: each takes effect as `parts_take_effect` says, and the rest after it. -/
theorem stimuliTakeEffectOneAtATime : Obligations.StimuliTakeEffectOneAtATime := by
  intro xs rest s he
  induction xs generalizing s with
  | nil =>
    obtain rfl : s.env = rest := he
    exact ⟨{ s with env := [] }, rfl, rfl⟩
  | cons x xs ih =>
    obtain ⟨u, hall, hrun⟩ := parts_take_effect x s
    obtain ⟨t, htall, htrun⟩ := ih { u with env := xs ++ rest } rfl
    have hs : { s with env := x :: (xs ++ rest) } = s := by
      rw [← List.cons_append, ← he]
    refine ⟨t, ?_, ?_⟩
    · rw [List.flatMap_cons, respondAll_append_of_next _ hall, htall]
    · rw [← hs, List.flatMap_cons, List.length_append, runSteps_add_of_next _ (hrun _), htrun]

/-! ### OUT during a load -/

/-- Only a rise of LATCH writes OUT (R180). -/
theorem deviceAfter_out_of_no_rise {es : List Event} (h : Event.pin .latch true ∉ es) (n : Nat) (l : Lines)
    (d : Device) : (deviceAfter n es l d).out = d.out := by
  induction es generalizing l d with
  | nil => rfl
  | cons e es ih =>
    rw [List.mem_cons, not_or] at h
    obtain ⟨hne, hes⟩ := h
    rw [deviceAfter, ih hes]
    match e with
    | .pin .latch true => exact absurd rfl hne
    | .pin .latch false => simp [deviceStep, rising]
    | .pin .clk b => rw [deviceStep, apply_ite Device.out, ite_self]
    | .pin .data _ => rfl
    | .sampleReq => rfl

/-- A load raises LATCH with its last event alone (R103). -/
theorem latch_rise_notMem_take_loadEvents (seg mask : Byte) {k : Nat} (h : k < 50) :
    Event.pin .latch true ∉ (loadEvents seg mask).take k := by
  have hinit : Event.pin .latch true ∉ [.pin .latch false] ++ serBits seg ++ serBits mask := by
    simp [serBits, bitEvents]
  have hlen : k ≤ ([Event.pin .latch false] ++ serBits seg ++ serBits mask).length := by
    simp only [List.length_append, List.length_singleton, serBits_length]
    omega
  rw [loadEvents, List.take_append_of_le_length hlen]
  exact fun hmem => hinit (List.mem_of_mem_take hmem)

/-- Settles O35: LATCH rises with the last event only, and then OUT takes the chain `deviceAfter_loadEvents` gives. -/
theorem loadCommitsBothBytesAtOnce : Obligations.LoadCommitsBothBytesAtOnce := by
  intro seg mask l n d
  refine ⟨fun k hk => deviceAfter_out_of_no_rise (latch_rise_notMem_take_loadEvents seg mask hk) n l d, ?_, ?_⟩
  · rw [deviceAfter_loadEvents]
    rfl
  · rw [deviceAfter_loadEvents, lowBits, Nat.mul_add_mod, Nat.mod_eq_of_lt (seg ++ mask).isLt]
    exact toNat_pair seg mask

/-! ### A sample between two refresh commands -/

/-- A command, a port write and the same command again: the second command runs on what the first left, with the
port written in between (R61, R62). -/
theorem runSteps_command_write_command {s t u : State} {w : Cmd} {i : Instr} {p : PortWrite} {rest : List Stimulus}
    (hw : decode w = .ok i) (he : s.env = .command w :: .write p :: .command w :: rest)
    (ht : exec i { s with env := .write p :: .command w :: rest } = .next t)
    (hte : t.env = .write p :: .command w :: rest)
    (hu : exec i { writePort p t with env := rest } = .next u) :
    runSteps 2 s = .next { writePort p t with env := .command w :: rest } ∧ runSteps 3 s = .next u := by
  have hstep1 : step s = .next t := (step_of_env_cons he).trans ((runWord_of_decode _ hw).trans ht)
  have hstep2 : step t = .next { writePort p t with env := .command w :: rest } := by
    rw [step_of_env_cons hte]
    cases p <;> rfl
  have hstep3 : step { writePort p t with env := .command w :: rest } = .next u :=
    (step_withEnv_cons (writePort p t) _ rest).trans ((runWord_of_decode _ hw).trans hu)
  have hrun : runSteps 2 s = .next { writePort p t with env := .command w :: rest } :=
    (runSteps_succ_of_next 1 hstep1).trans (runSteps_succ_of_next 0 hstep2)
  exact ⟨hrun, (runSteps_add_of_next 1 hrun).trans (runSteps_succ_of_next 0 hstep3)⟩

/-- PHASE in voltage mode: the digit is drawn from VOLT_CODE (R140, R147), and OUT takes it where CHAIN_LEN is 16. -/
theorem exec_phase_of_volts {s : State} (hv : s.inputs.showVolt = true) :
    ∃ t, exec .phase s = .next t ∧ t.cfg = s.cfg ∧ t.inputs = s.inputs ∧ t.env = s.env ∧
      t.val = lowBits s.cfg.wVal s.inputs.voltCode ∧
      t.seg = drawPattern s.cfg s.ph (digitAt (decompDigits t.val) s.ph) ∧
      (s.cfg.chainLen = 16 → t.dev.out = (t.seg ++ lutPos s.cfg s.ph).toNat) := by
  refine ⟨_, exec_phase s, rfl, rfl, rfl, ?_, rfl, fun hlen => ?_⟩
  · rw [← value_of_volts hv]
    rfl
  · rw [drawPhase_eq]
    exact drawnChain_of_chainLen hlen _ _ _

/-- Where the chain is as long as a load, drawing positions in turn latches the two bytes of each (R107, R183). -/
theorem latchedValues_drawnEvents {c : Config} (h : c.chainLen = 16) (ds : Vector DigitReg 4) (sv : Bool)
    (ps : List PosIx) (l : Lines) (d : Device) :
    latchedValues c.chainLen (ps.flatMap (drawnEvents c ds sv)) l d =
      ps.map fun p => (drawPattern c p (digitAt ds p) ++ lutPos c p).toNat := by
  induction ps generalizing l d with
  | nil => rfl
  | cons p ps ih =>
    have hone : latchedValues c.chainLen (drawnEvents c ds sv p) l d = [drawnChain c ds d.chain p] := by
      rw [drawnEvents, latchedValues_append, latchedValues_sampleEvents, latchedValues_loadEvents,
        deviceAfter_sampleEvents]
      rfl
    rw [List.flatMap_cons, latchedValues_append, hone, ih, drawnChain_of_chainLen h]
    rfl

/-- FRAME in voltage mode: at R6's values the four values it latches are drawn from VOLT_CODE (R140, R149). -/
theorem exec_frame_of_volts {s : State} (hv : s.inputs.showVolt = true) :
    ∃ t es, exec .frame s = .next t ∧ t.cfg = s.cfg ∧ t.inputs = s.inputs ∧ t.env = s.env ∧
      t.val = lowBits s.cfg.wVal s.inputs.voltCode ∧ t.events = s.events ++ es ∧
      (s.cfg.SourceValues → ∀ l d, latchedValues s.cfg.chainLen es l d = [0#2, 1#2, 2#2, 3#2].map (fun k =>
        (drawPattern s.cfg k (digitAt (decompDigits t.val) k) ++ lutPos s.cfg k).toNat)) := by
  obtain ⟨hcfg, -, hval, -, -, hin, henv, hev⟩ :=
    drawPhases_keep (framePositions s.cfg) s.inputs.showVolt (setValue (value s.inputs) s)
  refine ⟨_, _, exec_frame s, hcfg, hin, henv, ?_, hev, fun hsrc l d => ?_⟩
  · rw [← value_of_volts hv]
    exact hval
  · obtain ⟨hnum, -, hlen, -⟩ := hsrc
    rw [hval, ← framePositions_of_four hnum]
    exact latchedValues_drawnEvents hlen _ _ _ l d

/-- Settles O52: each command draws from VOLT_CODE as it finds it, and the second finds the code written in between. -/
theorem sampleShowsInTheNextPhase : Obligations.SampleShowsInTheNextPhase := by
  intro s c rest hv
  constructor
  · intro he
    obtain ⟨t, ht, hcfg, hin, henv, htval, htseg, htout⟩ :=
      exec_phase_of_volts (s := { s with env := .write (.voltCode c) :: .command 0x700000#24 :: rest }) hv
    change t.cfg = s.cfg at hcfg
    have hv' : (writePort (.voltCode c) t).inputs.showVolt = true := (congrArg Inputs.showVolt hin).trans hv
    obtain ⟨u, hu, -, -, -, huval, huseg, huout⟩ :=
      exec_phase_of_volts (s := { writePort (.voltCode c) t with env := rest }) hv'
    obtain ⟨hrun2, hrun3⟩ := runSteps_command_write_command (i := .phase) rfl he ht henv hu
    refine ⟨_, u, hrun2, hrun3, htval, htseg, ?_⟩
    rw [← hcfg] at htout ⊢
    exact ⟨huval, huseg, fun hlen => ⟨htout hlen, huout hlen⟩⟩
  · intro he
    obtain ⟨t, es, ht, hcfg, hin, henv, htval, htev, htlatched⟩ :=
      exec_frame_of_volts (s := { s with env := .write (.voltCode c) :: .command 0x800000#24 :: rest }) hv
    change t.cfg = s.cfg at hcfg
    have hv' : (writePort (.voltCode c) t).inputs.showVolt = true := (congrArg Inputs.showVolt hin).trans hv
    obtain ⟨u, fs, hu, -, -, -, huval, huev, hulatched⟩ :=
      exec_frame_of_volts (s := { writePort (.voltCode c) t with env := rest }) hv'
    obtain ⟨hrun2, hrun3⟩ := runSteps_command_write_command (i := .frame) rfl he ht henv hu
    refine ⟨_, u, es, fs, hrun2, hrun3, htval, htev, ?_⟩
    rw [← hcfg] at htlatched ⊢
    exact ⟨huval, huev, fun hsrc => ⟨htlatched hsrc _ _, hulatched hsrc _ _⟩⟩

end Sys2Proof.Machine
end

section
/-! PROOFS. The command word (spec/30_encoding.md): a row of the opcode table as an opcode and must-be-zero bits, the
decoder by rows, the word of a command as a number, and from these that decoder and encoder agree and which words are
illegal. -/

namespace Sys2Proof

/-! ### A row of the table: its opcode and its must-be-zero bits -/

/-- The opcode of a command (R72, R79); `opField_matchBits` ties it to the row's match. -/
def Instr.opcode : Instr → Nat
  | .encd _ => 1
  | .encp _ => 2
  | .dpclr => 3
  | .shout _ => 4
  | .wrsr _ _ => 5
  | .decomp _ => 6
  | .phase => 7
  | .frame => 8
  | .load => 9

/-- The must-be-zero bits of a command (R74); `maskBits_low` ties them to the row's mask. -/
def Instr.zeroBits : Instr → Cmd
  | .encd _ => 0x00FFFF#24
  | .encp _ => 0x0CFFFF#24
  | .dpclr => 0x0FFFFF#24
  | .shout _ => 0x0F00FF#24
  | .wrsr _ _ => 0x0F0000#24
  | .decomp _ => 0x0FC000#24
  | .phase => 0x0FFFFF#24
  | .frame => 0x0FFFFF#24
  | .load => 0x0FFFFF#24

/-- The command of the same row whose operands are the fields of `w` (R70, R73, R79). -/
def Instr.withOperandsOf (w : Cmd) : Instr → Instr
  | .encd _ => .encd (w.extractLsb' 16 4)
  | .encp _ => .encp (w.extractLsb' 16 2)
  | .dpclr => .dpclr
  | .shout _ => .shout (w.extractLsb' 8 8)
  | .wrsr _ _ => .wrsr (w.extractLsb' 8 8) (w.extractLsb' 0 8)
  | .decomp _ => .decomp (w.extractLsb' 0 14)
  | .phase => .phase
  | .frame => .frame
  | .load => .load

theorem matchBits_withOperandsOf (w : Cmd) (j : Instr) : (j.withOperandsOf w).matchBits = j.matchBits := by
  cases j <;> rfl

/-- Every mask fixes the whole opcode field (R72). -/
theorem maskBits_opcode (j : Instr) : j.maskBits >>> 20 = 0xF#24 := by
  cases j <;> rw [Instr.maskBits] <;> rfl

/-- Below the opcode a mask fixes the must-be-zero bits (R74). -/
theorem maskBits_low (j : Instr) : j.maskBits &&& 0x0FFFFF#24 = j.zeroBits := by
  cases j <;> rw [Instr.maskBits, Instr.zeroBits] <;> rfl

/-- The opcode of a match is its command's (R72). -/
theorem opField_matchBits (j : Instr) : opField j.matchBits = j.opcode := by
  cases j <;> rw [Instr.matchBits, Instr.opcode] <;> rfl

/-- Every match is 0 below the opcode (R74). -/
theorem matchBits_low (j : Instr) : j.matchBits &&& 0x0FFFFF#24 = 0#24 := by
  cases j <;> rw [Instr.matchBits] <;> rfl

/-- The rows of R72's table are those of the commands. -/
theorem mem_opcodeRows (r : Cmd × Cmd) : r ∈ opcodeRows ↔ ∃ j : Instr, (j.matchBits, j.maskBits) = r := by
  constructor
  · intro hr
    simp only [opcodeRows, List.mem_cons, List.not_mem_nil, or_false] at hr
    obtain rfl | rfl | rfl | rfl | rfl | rfl | rfl | rfl | rfl := hr
    · exact ⟨.encd 0#4, rfl⟩
    · exact ⟨.encp 0#2, rfl⟩
    · exact ⟨.dpclr, rfl⟩
    · exact ⟨.shout 0#8, rfl⟩
    · exact ⟨.wrsr 0#8 0#8, rfl⟩
    · exact ⟨.decomp 0#14, rfl⟩
    · exact ⟨.phase, rfl⟩
    · exact ⟨.frame, rfl⟩
    · exact ⟨.load, rfl⟩
  · rintro ⟨j, rfl⟩
    cases j <;> simp [opcodeRows, Instr.matchBits, Instr.maskBits]

theorem exists_mem_opcodeRows (p : Cmd → Cmd → Prop) :
    (∃ r ∈ opcodeRows, p r.1 r.2) ↔ ∃ j : Instr, p j.matchBits j.maskBits := by
  simp only [mem_opcodeRows]
  exact ⟨fun ⟨_, ⟨j, hj⟩, h⟩ => ⟨j, by rw [← hj] at h; exact h⟩, fun ⟨j, h⟩ => ⟨_, ⟨j, rfl⟩, h⟩⟩

/-! ### Matching a row -/

/-- Bits 23..20 of a word are no more than four. -/
theorem opcode_and_F (w : Cmd) : w >>> 20 &&& 0xF#24 = w >>> 20 := by
  apply BitVec.eq_of_toNat_eq
  have hlt : (w >>> 20).toNat < 2 ^ 4 := opField_eq w ▸ opField_lt w
  exact (Nat.and_two_pow_sub_one_eq_mod _ 4).trans (Nat.mod_eq_of_lt hlt)

/-- A word is its opcode and the 20 bits below it. -/
theorem Cmd.eq_iff_opcode_low (x y : Cmd) :
    x = y ↔ x >>> 20 = y >>> 20 ∧ x &&& 0x0FFFFF#24 = y &&& 0x0FFFFF#24 := by
  have low (z : Cmd) : (z &&& 0x0FFFFF#24).toNat = z.toNat % 2 ^ 20 := Nat.and_two_pow_sub_one_eq_mod _ 20
  have high (z : Cmd) : (z >>> 20).toNat = z.toNat / 2 ^ 20 := by
    rw [BitVec.toNat_ushiftRight, Nat.shiftRight_eq_div_pow]
  simp only [← BitVec.toNat_inj, low, high]
  omega

theorem opcode_eq_match_iff (w : Cmd) (j : Instr) : w >>> 20 = j.matchBits >>> 20 ↔ opField w = j.opcode := by
  rw [← opField_matchBits, opField_eq, opField_eq, BitVec.toNat_inj]

/-- A word matches a row when it has the row's opcode and the row's must-be-zero bits are 0. -/
theorem matches_iff (w : Cmd) (j : Instr) :
    w &&& j.maskBits = j.matchBits ↔ opField w = j.opcode ∧ w &&& j.zeroBits = 0#24 := by
  rw [Cmd.eq_iff_opcode_low, BitVec.ushiftRight_and_distrib, maskBits_opcode, opcode_and_F, opcode_eq_match_iff,
    BitVec.and_assoc, maskBits_low, matchBits_low]

/-! ### The decoder, row by row -/

/-- A word with a row's opcode is that row's command if the row's must-be-zero bits are 0 (R79). -/
theorem decode_of_opcode {w : Cmd} {j : Instr} (h : opField w = j.opcode) :
    decode w = requireZero w j.zeroBits (j.withOperandsOf w) := by
  rw [decode_of_opField h]
  cases j <;> rfl

/-- A word whose opcode is 0x0 or 0xA to 0xF has a reserved opcode (R75). -/
theorem decode_of_reserved {w : Cmd} (h : opField w = 0 ∨ 10 ≤ opField w) : decode w = .error .reservedOpcode := by
  obtain hzero | hten := h
  · exact decode_of_opField hzero
  · obtain ⟨n, hn⟩ := Nat.exists_eq_add_of_le' hten
    exact decode_of_opField hn

/-- Every opcode is reserved or a command's (R75, R78). -/
theorem reserved_or_opcode (w : Cmd) : (opField w = 0 ∨ 10 ≤ opField w) ∨ ∃ j : Instr, opField w = j.opcode := by
  have table : ∀ n < 16, (n = 0 ∨ 10 ≤ n) ∨ ∃ r ∈ opcodeRows, n = opField r.1 := by decide
  refine (table _ (opField_lt w)).imp_right fun hrow => ?_
  obtain ⟨j, hj⟩ := (exists_mem_opcodeRows fun x _ => opField w = opField x).1 hrow
  exact ⟨j, hj.trans (opField_matchBits j)⟩

/-- A word that matches a row is the row's command, its operands read from the word. -/
theorem decode_of_matches {w : Cmd} {j : Instr} (h : w &&& j.maskBits = j.matchBits) :
    decode w = .ok (j.withOperandsOf w) := by
  obtain ⟨hop, hzero⟩ := (matches_iff w j).1 h
  rw [decode_of_opcode hop, requireZero_of_zero _ hzero]

/-- A word that decodes to a command matches a row, and the command is that row's with its operands from the word. -/
theorem matches_of_decode {w : Cmd} {i : Instr} (h : decode w = .ok i) :
    ∃ j : Instr, w &&& j.maskBits = j.matchBits ∧ j.withOperandsOf w = i := by
  obtain hres | ⟨j, hop⟩ := reserved_or_opcode w
  · rw [decode_of_reserved hres] at h
    cases h
  · rw [decode_of_opcode hop] at h
    obtain ⟨hzero, hi⟩ := requireZero_ok h
    exact ⟨j, (matches_iff w j).2 ⟨hop, hzero⟩, hi⟩

/-! ### The word of a command -/

/-- The word of a command as R83's table has it: the opcode and the operands at their weights. -/
def Instr.wordNumber : Instr → Nat
  | .encd d => 0x100000 + d.toNat * 65536
  | .encp i => 0x200000 + i.toNat * 65536
  | .dpclr => 0x300000
  | .shout b => 0x400000 + b.toNat * 256
  | .wrsr seg mask => 0x500000 + seg.toNat * 256 + mask.toNat
  | .decomp v => 0x600000 + v.toNat
  | .phase => 0x700000
  | .frame => 0x800000
  | .load => 0x900000

/-- Two words, one of multiples of 2^k and one below 2^k, share no bit: together they spell the sum of their numbers. -/
theorem toNat_or_of_dvd_of_lt {x y : Cmd} (k : Nat) (hx : 2 ^ k ∣ x.toNat) (hy : y.toNat < 2 ^ k) :
    (x ||| y).toNat = x.toNat + y.toNat := by
  obtain ⟨a, ha⟩ := hx
  rw [BitVec.toNat_or, ha, Nat.two_pow_add_eq_or_of_lt hy]

/-- An operand of n bits, moved up by k bits, keeps below bit n + k. -/
theorem toNat_mul_lt {n m : Nat} (x : BitVec n) (k : Nat) (h : n + k ≤ m) : x.toNat * 2 ^ k < 2 ^ m := calc
  x.toNat * 2 ^ k < 2 ^ n * 2 ^ k := Nat.mul_lt_mul_of_pos_right x.isLt (Nat.two_pow_pos k)
  _ = 2 ^ (n + k) := (pow_add 2 n k).symm
  _ ≤ 2 ^ m := Nat.pow_le_pow_right two_pos h

/-- An operand of n bits, placed at bit k of a word that has room for it. -/
theorem toNat_place {n : Nat} (x : BitVec n) (k : Nat) (h : n + k ≤ 24) :
    (x.setWidth 24 <<< k).toNat = x.toNat * 2 ^ k := by
  rw [BitVec.toNat_shiftLeft, BitVec.toNat_setWidth_of_le (by omega), Nat.shiftLeft_eq,
    Nat.mod_eq_of_lt (toNat_mul_lt x k h)]

/-- An opcode and an operand below it: the operand's place does not reach bit 20. -/
theorem toNat_opcode_or_place {n : Nat} {op : Cmd} (hop : 2 ^ 20 ∣ op.toNat) (x : BitVec n) (k : Nat) (h : n + k ≤ 20) :
    (op ||| (x.setWidth 24 <<< k)).toNat = op.toNat + x.toNat * 2 ^ k := by
  have hplace := toNat_place x k (by omega)
  rw [toNat_or_of_dvd_of_lt 20 hop (hplace ▸ toNat_mul_lt x k h), hplace]

/-- The encoder gives each command R83's number. -/
theorem toNat_encode (i : Instr) : (encode i).toNat = i.wordNumber := by
  cases i with
  | encd d => exact toNat_opcode_or_place (op := 0x100000#24) (by decide) d 16 (by decide)
  | encp k => exact toNat_opcode_or_place (by decide) k 16 (by decide)
  | dpclr => rfl
  | shout b => exact toNat_opcode_or_place (by decide) b 8 (by decide)
  | wrsr seg mask =>
    have hseg : (0x500000#24 ||| (seg.setWidth 24 <<< 8)).toNat = 0x500000 + seg.toNat * 256 :=
      toNat_opcode_or_place (by decide) seg 8 (by decide)
    have hmask : (mask.setWidth 24).toNat = mask.toNat := BitVec.toNat_setWidth_of_le (by decide)
    rw [encode, toNat_or_of_dvd_of_lt 8 (by omega) (by omega), hseg, hmask, Instr.wordNumber]
  | decomp v =>
    have h := toNat_opcode_or_place (op := 0x600000#24) (by decide) v 0 (by decide)
    rwa [BitVec.shiftLeft_zero, pow_zero, mul_one] at h
  | phase => rfl
  | frame => rfl
  | load => rfl

/-- The row of a command's word is the command's own (R71). -/
theorem encode_matches (i : Instr) : encode i &&& i.maskBits = i.matchBits := by
  cases i with
  | encd d => exact Laws.EncodeMatchesRow.encd d
  | encp k => exact Laws.EncodeMatchesRow.encp k
  | dpclr => exact Laws.EncodeMatchesRow.dpclr
  | shout b => exact Laws.EncodeMatchesRow.shout b
  | wrsr seg mask => exact Laws.EncodeMatchesRow.wrsr seg mask
  | decomp v => exact Laws.EncodeMatchesRow.decomp v
  | phase => exact Laws.EncodeMatchesRow.phase
  | frame => exact Laws.EncodeMatchesRow.frame
  | load => exact Laws.EncodeMatchesRow.load

/-- A field of a command's word, from the word's number. -/
theorem extract_encode {i : Instr} {start len : Nat} {x : BitVec len}
    (h : i.wordNumber / 2 ^ start % 2 ^ len = x.toNat) : (encode i).extractLsb' start len = x := by
  apply BitVec.eq_of_toNat_eq
  rw [BitVec.extractLsb'_toNat, Nat.shiftRight_eq_div_pow, toNat_encode, h]

/-- The operands of a command are the fields of its word (R73). -/
theorem withOperandsOf_encode (i : Instr) : i.withOperandsOf (encode i) = i := by
  cases i with
  | encd d => exact congrArg Instr.encd (extract_encode (by rw [Instr.wordNumber]; omega))
  | encp k => exact congrArg Instr.encp (extract_encode (by rw [Instr.wordNumber]; omega))
  | shout b => exact congrArg Instr.shout (extract_encode (by rw [Instr.wordNumber]; omega))
  | wrsr seg mask =>
    exact congrArg₂ Instr.wrsr (extract_encode (by rw [Instr.wordNumber]; omega))
      (extract_encode (by rw [Instr.wordNumber]; omega))
  | decomp v => exact congrArg Instr.decomp (extract_encode (by rw [Instr.wordNumber]; omega))
  | dpclr => rfl
  | phase => rfl
  | frame => rfl
  | load => rfl

/-- Settles O5: a command's word matches the command's row, and its fields are the command's operands. -/
theorem decodeOfEncodeIsTheCommand : Obligations.DecodeOfEncodeIsTheCommand := fun i => by
  rw [decode_of_matches (encode_matches i), withOperandsOf_encode]

/-- A field of a word, put back at its place: the bits of the word there. -/
theorem place_extract (w : Cmd) (start len : Nat) :
    (w.extractLsb' start len).setWidth 24 <<< start = w &&& ((BitVec.allOnes len).setWidth 24 <<< start) := by
  ext k hk
  by_cases hs : k < start
  · simp [hs]
  · have hk' : start + (k - start) = k := by omega
    simp [hs, hk', hk, BitVec.getLsbD_eq_getElem, Bool.and_comm]

/-- The command of a row with the operands of `w` has the word whose free bits are those of `w`. -/
theorem encode_withOperandsOf (w : Cmd) (j : Instr) :
    encode (j.withOperandsOf w) = j.matchBits ||| (w &&& ~~~j.maskBits) := by
  have low (len : Nat) : (w.extractLsb' 0 len).setWidth 24 = w &&& (BitVec.allOnes len).setWidth 24 := by
    simpa only [BitVec.shiftLeft_zero] using place_extract w 0 len
  have hfixed : w &&& ~~~0xFFFFFF#24 = 0#24 := by simp
  cases j with
  | encd d =>
    rw [Instr.withOperandsOf, encode, place_extract, Instr.matchBits, Instr.maskBits]
    rfl
  | encp k =>
    rw [Instr.withOperandsOf, encode, place_extract, Instr.matchBits, Instr.maskBits]
    rfl
  | shout b =>
    rw [Instr.withOperandsOf, encode, place_extract, Instr.matchBits, Instr.maskBits]
    rfl
  | wrsr seg mask =>
    rw [Instr.withOperandsOf, encode, place_extract, low, BitVec.or_assoc, ← BitVec.and_or_distrib_left,
      Instr.matchBits, Instr.maskBits]
    rfl
  | decomp v =>
    rw [Instr.withOperandsOf, encode, low, Instr.matchBits, Instr.maskBits]
    rfl
  | dpclr => rw [Instr.maskBits, hfixed]; rfl
  | phase => rw [Instr.maskBits, hfixed]; rfl
  | frame => rw [Instr.maskBits, hfixed]; rfl
  | load => rw [Instr.maskBits, hfixed]; rfl

/-- Settles O6: a word is its row's match where the mask fixes it, and its own operands elsewhere. -/
theorem encodeOfDecodeIsTheWord : Obligations.EncodeOfDecodeIsTheWord := by
  intro w i h
  obtain ⟨j, hmatch, rfl⟩ := matches_of_decode h
  rw [encode_withOperandsOf, ← hmatch, ← BitVec.and_or_distrib_left, BitVec.or_not_self, BitVec.and_allOnes]

/-- Settles O7: a matching word decodes to its row's command, and a word that decodes to one has that row's opcode. -/
theorem wordIsTheCommandItsRowMatches : Obligations.WordIsTheCommandItsRowMatches := by
  intro w j
  constructor
  · intro hmatch
    exact ⟨_, decode_of_matches hmatch, matchBits_withOperandsOf w j⟩
  · rintro ⟨i, hi, hrow⟩
    obtain ⟨k, hmatch, rfl⟩ := matches_of_decode hi
    obtain ⟨hop, -⟩ := (matches_iff w k).1 hmatch
    rw [matchBits_withOperandsOf] at hrow
    rw [← opField_matchBits, hrow, opField_matchBits] at hop
    rw [decode_of_opcode hop] at hi
    obtain ⟨hzero, -⟩ := requireZero_ok hi
    exact (matches_iff w j).2 ⟨hop, hzero⟩

/-- A word with a command's opcode that does not match its row has a must-be-zero bit set (R76). -/
theorem decode_of_mismatch {w : Cmd} {j : Instr} (hop : opField w = j.opcode) (hne : w &&& j.maskBits ≠ j.matchBits) :
    decode w = .error .mustBeZeroBitSet := by
  rw [decode_of_opcode hop]
  exact requireZero_of_ne _ fun hzero => hne ((matches_iff w j).2 ⟨hop, hzero⟩)

/-- A word is rejected as reserved for its opcode alone (R75). -/
theorem decode_eq_reservedOpcode_iff (w : Cmd) :
    decode w = .error .reservedOpcode ↔ opField w = 0 ∨ 10 ≤ opField w := by
  refine ⟨fun h => (reserved_or_opcode w).resolve_right fun ⟨j, hop⟩ => ?_, decode_of_reserved⟩
  by_cases hm : w &&& j.maskBits = j.matchBits
  · rw [decode_of_matches hm] at h
    cases h
  · rw [decode_of_mismatch hop hm] at h
    cases h

/-- A word is rejected for a must-be-zero bit when it has a command's opcode and does not match its row (R76). -/
theorem decode_eq_mustBeZeroBitSet_iff (w : Cmd) :
    decode w = .error .mustBeZeroBitSet ↔ ∃ j : Instr, opField w = j.opcode ∧ w &&& j.maskBits ≠ j.matchBits := by
  refine ⟨fun h => ?_, fun ⟨j, hop, hm⟩ => decode_of_mismatch hop hm⟩
  obtain hres | ⟨j, hop⟩ := reserved_or_opcode w
  · rw [decode_of_reserved hres] at h
    cases h
  · refine ⟨j, hop, fun hm => ?_⟩
    rw [decode_of_matches hm] at h
    cases h

/-- Settles O8: each clause is one decoding, the rows being those of the commands. -/
theorem everyWordIsACommandOrIllegal : Obligations.EveryWordIsACommandOrIllegal := by
  intro w
  rw [exists_mem_opcodeRows fun x m => w >>> 20 = x >>> 20 ∧ w &&& m ≠ x,
    exists_mem_opcodeRows fun x m => w &&& m = x, ← opField_eq]
  simp only [opcode_eq_match_iff]
  refine ⟨decode_eq_reservedOpcode_iff w, decode_eq_mustBeZeroBitSet_iff w, fun ⟨i, hi⟩ => ?_, fun ⟨j, hm⟩ => ?_⟩
  · obtain ⟨j, hm, -⟩ := matches_of_decode hi
    exact ⟨j, hm⟩
  · exact ⟨_, decode_of_matches hm⟩

/-- Settles O9: the ten words are the encodings of their commands. -/
theorem workedWordsDecode : Obligations.WorkedWordsDecode :=
  ⟨decodeOfEncodeIsTheCommand (.encd 7#4), decodeOfEncodeIsTheCommand (.encd 12#4),
    decodeOfEncodeIsTheCommand (.encp 3#2), decodeOfEncodeIsTheCommand .dpclr,
    decodeOfEncodeIsTheCommand (.shout 0xA5#8), decodeOfEncodeIsTheCommand (.wrsr 0x12#8 0x02#8),
    decodeOfEncodeIsTheCommand (.decomp 509#14), decodeOfEncodeIsTheCommand .phase,
    decodeOfEncodeIsTheCommand .frame, decodeOfEncodeIsTheCommand .load⟩

end Sys2Proof
end

section
/-! PROOFS. What a command word does when it is presented (R75 to R77, R79, R188), the assembler (R83), the bits of a load
(R82) and the pseudo-instructions (R84). -/

namespace Sys2Proof.Machine

/-! ### The assembler -/

/-- A source command that stands for one instruction: its word where the operands are in range, as R83's table has it. -/
theorem assembleCmd_eq {op : RefreshOp} {c : SourceCmd} {i : Instr} (hexp : expand op c = [i]) {p : Prop} [Decidable p]
    (hwf : c.wellFormed = true ↔ p) {n : Nat} (hn : p → i.wordNumber = n) :
    assembleCmd op c = if p then some [BitVec.ofNat 24 n] else none := by
  rw [assembleCmd, hexp, if_congr hwf rfl rfl]
  by_cases hp : p
  · rw [if_pos hp, if_pos hp, ← hn hp, ← toNat_encode, BitVec.ofNat_toNat, BitVec.setWidth_eq, List.map_singleton]
  · rw [if_neg hp, if_neg hp]

/-- A number in an operand's range is the operand's own (R83). -/
theorem toNat_ofNat_of_le {n x m : Nat} (h : x ≤ m) (hm : m < 2 ^ n) : (BitVec.ofNat n x).toNat = x :=
  Nat.mod_eq_of_lt (h.trans_lt hm)

/-- Settles O10: in its range an operand number is the field's own, so it adds to the word at its place. -/
theorem assemblerNeverTruncates : Obligations.AssemblerNeverTruncates := by
  refine fun op x y => ⟨?_, ?_, rfl, ?_, ?_, ?_, rfl, rfl, rfl⟩
  · exact assembleCmd_eq rfl (by simp [SourceCmd.wellFormed]) fun hx => by
      rw [Instr.wordNumber, toNat_ofNat_of_le hx (by decide)]
  · exact assembleCmd_eq rfl (by simp [SourceCmd.wellFormed]) fun hx => by
      rw [Instr.wordNumber, toNat_ofNat_of_le hx (by decide)]
  · exact assembleCmd_eq rfl (by simp [SourceCmd.wellFormed]) fun hx => by
      rw [Instr.wordNumber, toNat_ofNat_of_le hx (by decide)]
  · exact assembleCmd_eq rfl (by simp [SourceCmd.wellFormed]) fun ⟨hx, hy⟩ => by
      rw [Instr.wordNumber, toNat_ofNat_of_le hx (by decide), toNat_ofNat_of_le hy (by decide)]
  · exact assembleCmd_eq rfl (by simp [SourceCmd.wellFormed]) fun hx => by
      rw [Instr.wordNumber, toNat_ofNat_of_le hx (by decide)]

/-! ### A word presented -/

/-- Settles O11: the step is `respond` to a command word, which is `runWord`. -/
theorem stepRunsTheDecodedCommand : Obligations.StepRunsTheDecodedCommand := fun s _ rest _ he hd =>
  (step_of_env_cons he).trans (runWord_of_decode { s with env := rest } hd)

/-- An illegal word sets FLT bit 0 (R75, R76). -/
theorem step_of_illegal {s : State} {w : Cmd} {rest : List Stimulus} {e : IllegalWord} (he : s.env = .command w :: rest)
    (hd : decode w = .error e) : step s = .next { s with flt := s.flt ||| 0x01#8, env := rest } :=
  (step_of_env_cons he).trans (runWord_of_illegal { s with env := rest } hd)

/-- The word of a command runs that command. -/
theorem step_of_encode {s : State} {i : Instr} {rest : List Stimulus} (he : s.env = .command (encode i) :: rest) :
    step s = exec i { s with env := rest } :=
  stepRunsTheDecodedCommand s (encode i) rest i he (decodeOfEncodeIsTheCommand i)

/-- Settles O18: two clauses are the illegal words of O8, and the third is ENCD's fault. -/
theorem faultingWordOnlySetsItsFltBit : Obligations.FaultingWordOnlySetsItsFltBit := by
  intro s w rest he
  obtain ⟨hreserved, hmbz, -⟩ := everyWordIsACommandOrIllegal w
  refine ⟨fun h => step_of_illegal he (hreserved.2 h), fun h => step_of_illegal he (hmbz.2 h), ?_⟩
  rintro ⟨d, hd, rfl⟩
  exact (step_of_encode he).trans (exec_encd_of_ge _ hd)

/-! ### The bits of a load -/

/-- The serializer does not touch LATCH (R102). -/
theorem count_latch_serBits (x : Byte) (b : Bool) : (serBits x).count (.pin .latch b) = 0 := by
  simp [serBits, bitEvents]

/-- Settles O34: LATCH is driven by the first and the last event alone, and between them go the bits of two bytes. -/
theorem loadCarriesSixteenBitsFramedByLatch : Obligations.LoadCarriesSixteenBitsFramedByLatch := by
  refine fun seg mask l => ⟨loadEvents_length seg mask, rfl, List.getLast?_concat, fun b => ?_, ?_⟩
  · rw [loadEvents, List.count_append, List.count_append, List.count_append, count_latch_serBits, count_latch_serBits]
    cases b <;> rfl
  · rw [loadEvents, sampledBits_append, sampledBits_append, sampledBits_append, sampledBits_serBits,
      sampledBits_serBits]
    rfl

/-! ### The pseudo-instructions -/

/-- The word of a command, taken off a run. -/
theorem runSteps_of_encode {s t : State} {i : Instr} {rest : List Stimulus} (n : Nat)
    (he : s.env = .command (encode i) :: rest) (ht : exec i { s with env := rest } = .next t) :
    runSteps (n + 1) s = runSteps n t :=
  runSteps_succ_of_next n ((step_of_encode he).trans ht)

/-- Where the chain is as long as a load, OUT holds a load's two bytes (R107). -/
theorem emit_loadEvents_out {s : State} (h : s.cfg.chainLen = 16) (seg mask : Byte) :
    (emit (loadEvents seg mask) s).dev.out = (seg ++ mask).toNat := by
  rw [emit_loadEvents, h, lowBits, Nat.mul_add_mod]
  exact Nat.mod_eq_of_lt (BitVec.isLt _)

/-- ENCD, as a change of SEG or of FLT (R122). -/
theorem exec_encd (d : DigitReg) (s : State) :
    exec (.encd d) s = .next { s with
      seg := if d.toNat < 10 then lutSeg s.cfg d else s.seg
      flt := if d.toNat < 10 then s.flt else s.flt ||| 0x02#8 } := by
  by_cases hd : d.toNat < 10
  · rw [exec_encd_of_lt s hd, if_pos hd, if_pos hd]
  · rw [exec_encd_of_ge s (Nat.not_lt.1 hd), if_neg hd, if_neg hd]
    rfl

/-- The end that DRAW and DRAWDP share: ENCP and LOAD show SEG at a position. -/
theorem runSteps_encp_load {s : State} {i : PosIx} {rest : List Stimulus}
    (he : s.env = .command (encode (.encp i)) :: .command (encode .load) :: rest) :
    ∃ t, runSteps 2 s = .next t ∧ t.env = rest ∧ t.flt = s.flt ∧ t.seg = s.seg ∧ t.mask = lutPos s.cfg i ∧
      (s.cfg.chainLen = 16 → t.dev.out = (s.seg ++ lutPos s.cfg i).toNat) :=
  ⟨emit (loadEvents s.seg (lutPos s.cfg i)) { s with mask := lutPos s.cfg i, env := rest },
    (runSteps_of_encode 1 he (exec_encp i _)).trans (runSteps_of_encode 0 rfl (exec_load _)),
    rfl, rfl, rfl, rfl, fun hlen => emit_loadEvents_out hlen _ _⟩

/-- Settles O53, each expansion by the commands it stands for. -/
theorem pseudoInstructionsShowTheirDigit : Obligations.PseudoInstructionsShowTheirDigit := by
  intro s d i rest pattern faults
  refine ⟨fun he => ?_, fun he => ?_, fun he => ?_, fun he => ?_⟩
  · obtain ⟨t, ht, h⟩ := runSteps_encp_load (i := i) (rest := rest)
      (s := { s with seg := pattern, flt := faults, env := _ }) rfl
    exact ⟨t, (runSteps_of_encode 2 he (exec_encd d _)).trans ht, h⟩
  · obtain ⟨t, ht, h⟩ := runSteps_encp_load (i := i) (rest := rest)
      (s := { s with seg := dpClear pattern, flt := faults, env := _ }) rfl
    exact ⟨t, (runSteps_of_encode 3 he (exec_encd d _)).trans
      ((runSteps_of_encode 2 rfl (exec_dpclr _)).trans ht), h⟩
  · exact ⟨_, runSteps_of_encode 0 he (exec_wrsr 0xFF#8 0x00#8 _), rfl, rfl, fun hlen => emit_loadEvents_out hlen _ _⟩
  · rw [step_of_env_cons he]
    rfl

end Sys2Proof.Machine
end

section
/-! PROOFS. The serial output driver's events and its three commands (spec/40_serial.md): the order of a byte's events
(R100, R102), SHOUT, WRSR and LOAD as whole next states (R101, R104, R105), and a SHOUT before a load (R108). -/

namespace Sys2Proof.Machine

/-! ### The events of a byte -/

/-- Settles O32: the three events of bit 7 - k stand at place 3 * k, for each of the eight bits. -/
theorem serializerEventsOfEachBit : Obligations.SerializerEventsOfEachBit := by
  refine fun b => ⟨serBits_length b, fun k hk => ?_⟩
  interval_cases k <;> exact ⟨rfl, rfl, rfl⟩

/-- Settles O33: CLK rises once for each bit, with the bit on DATA, by `sampledBits_serBits`. -/
theorem serializerRaisesClkEightTimes : Obligations.SerializerRaisesClkEightTimes := by
  intro b l
  rw [sampledBits_serBits]
  refine ⟨rfl, fun k hpos hle => ?_, linesAfter_serBits b l⟩
  interval_cases k <;> rfl

/-! ### What is left of the chain's old bits -/

/-- Bits moved up by at least the length of a place are lost to it. -/
theorem lowBits_two_pow_mul_add {n m : Nat} (h : n ≤ m) (x d : Nat) : lowBits n (2 ^ m * x + d) = lowBits n d := by
  obtain ⟨c, hc⟩ := Nat.pow_dvd_pow 2 h
  rw [lowBits, hc, Nat.mul_assoc, Nat.mul_add_mod, lowBits]

/-- A chain as long as a load holds the load's two bytes alone (R107). -/
theorem lowBits_loaded {n : Nat} (h : n = 16) (c : Nat) (x : BitVec 16) :
    lowBits n (2 ^ 16 * c + x.toNat) = x.toNat := by
  rw [lowBits_two_pow_mul_add h.le, h, lowBits_of_lt x.isLt]

/-- A chain of 16 bits takes a byte below the low byte it held (R108). -/
theorem lowBits_shifted {n : Nat} (h : n = 16) (c : Nat) (b : Byte) :
    lowBits n (2 ^ 8 * c + b.toNat) = c % 256 * 256 + b.toNat := by
  have hb := b.isLt
  rw [h, lowBits]
  omega

/-! ### The commands -/

/-- Settles O36: SHOUT emits the serializer's events, and `emit_serBits` is all they do. -/
theorem shoutShiftsItsByteIntoTheChain : Obligations.ShoutShiftsItsByteIntoTheChain := fun b s => by
  rw [exec_shout, emit_serBits]
  rfl

/-- Settles O37: WRSR emits a load's events, and `emit_loadEvents` is all they do. -/
theorem wrsrLoadsItsTwoBytes : Obligations.WrsrLoadsItsTwoBytes := by
  refine fun seg mask s => ⟨_, ?_, rfl, fun hlen => lowBits_loaded hlen s.dev.chain (seg ++ mask)⟩
  rw [exec_wrsr, emit_loadEvents]
  rfl

/-- LOAD is the WRSR of SEG and MASK (R104, R105). -/
theorem exec_load_eq_wrsr (s : State) : exec .load s = exec (.wrsr s.seg s.mask) s := by
  rw [exec_load, exec_wrsr]

/-- Settles O38, as the WRSR of what SEG and MASK hold. -/
theorem loadSendsSegAndMask : Obligations.LoadSendsSegAndMask := fun s => by
  rw [exec_load_eq_wrsr]
  exact wrsrLoadsItsTwoBytes s.seg s.mask s

/-- Where the chain is no longer than a load, what a load leaves in the device is of its two bytes alone. -/
theorem emit_loadEvents_dev {s : State} (h : s.cfg.chainLen ≤ 16) (seg mask : Byte) :
    (emit (loadEvents seg mask) s).dev =
      ⟨lowBits s.cfg.chainLen (seg ++ mask).toNat, lowBits s.cfg.chainLen (seg ++ mask).toNat⟩ := by
  rw [emit_loadEvents, lowBits_two_pow_mul_add h]

/-- Settles O39: the serializer does not raise LATCH, and a load leaves nothing of a chain of at most 16 bits. -/
theorem shoutDoesNotReachTheNextLoad : Obligations.ShoutDoesNotReachTheNextLoad := by
  intro b seg mask s
  refine ⟨_, _, _, exec_shout b s, exec_wrsr seg mask _, exec_wrsr seg mask s, ?_, fun hlen => ?_, fun hlen => ?_⟩
  · rw [emit_serBits]
  · rw [emit_serBits]
    exact lowBits_shifted hlen s.dev.chain b
  · rw [emit_loadEvents_dev hlen, emit_loadEvents_dev (by rwa [emit_cfg]), emit_cfg]

end Sys2Proof.Machine
end

section
/-! PROOFS. The digit encoder (spec/41_encoder.md): the tables under their constraints (R121, R124), the three commands as
whole next states (R122, R125, R127), and which position a load with a table mask selects (R182). -/

namespace Sys2Proof.Machine

/-! ### The tables under their constraints -/

/-- Every pattern of the segment table has its decimal point dark (R121). -/
theorem getLsbD_lutSeg_seven {c : Config} (h : c.WellFormed) {d : DigitReg} (hd : d.toNat < 10) :
    (lutSeg c d).getLsbD 7 = true := by
  obtain ⟨hdark, -⟩ := h
  rw [lutSeg_of_lt c d hd]
  exact hdark _

/-- Every mask of the position table has one bit set, among bits 6 to 0 (R124). -/
theorem exists_lutPos_eq_twoPow {c : Config} (h : c.WellFormed) (i : PosIx) : ∃ k < 7, lutPos c i = BitVec.twoPow 8 k := by
  obtain ⟨-, honehot, -⟩ := h
  obtain ⟨k, hk⟩ := honehot i.toFin
  exact ⟨k, k.isLt, hk⟩

/-- The masks of the position table are distinct (R124). -/
theorem lutPos_injective {c : Config} (h : c.WellFormed) : Function.Injective (lutPos c) := by
  obtain ⟨-, -, hdistinct, -⟩ := h
  exact fun i j hij => BitVec.toFin_inj.1 (not_imp_not.1 (hdistinct i.toFin j.toFin) hij)

/-- Two bytes of one bit each meet only where they are equal. -/
theorem twoPow_and_twoPow_ne_zero_iff {k m : Nat} (hk : k < 8) :
    BitVec.twoPow 8 k &&& BitVec.twoPow 8 m ≠ 0#8 ↔ BitVec.twoPow 8 k = BitVec.twoPow 8 m := by
  have hbit : (BitVec.twoPow 8 k).getLsbD k = true := by simp [hk]
  have hne : BitVec.twoPow 8 k ≠ 0#8 := fun h0 => by simp [h0] at hbit
  constructor
  · contrapose
    intro hdiff
    have hkm : k ≠ m := fun h => hdiff (congrArg _ h)
    simp [BitVec.and_twoPow, hkm]
  · intro heq
    rwa [← heq, BitVec.and_self]

/-- Masks of the table meet only at the same position. -/
theorem lutPos_and_lutPos_ne_zero_iff {c : Config} (h : c.WellFormed) (i j : PosIx) :
    lutPos c i &&& lutPos c j ≠ 0#8 ↔ j = i := by
  obtain ⟨k, hk, hki⟩ := exists_lutPos_eq_twoPow h i
  obtain ⟨m, -, hmj⟩ := exists_lutPos_eq_twoPow h j
  calc lutPos c i &&& lutPos c j ≠ 0#8
    _ ↔ lutPos c i = lutPos c j := by rw [hki, hmj]; exact twoPow_and_twoPow_ne_zero_iff (by omega)
    _ ↔ i = j := (lutPos_injective h).eq_iff
    _ ↔ j = i := eq_comm

/-! ### The position a load selects -/

/-- After a load, a position is selected where the loaded mask meets the position's own (R107, R182). -/
theorem selected_emit_loadEvents {s : State} (h : 16 ≤ s.cfg.chainLen) (seg mask : Byte) (i : PosIx) :
    selected s.cfg (emit (loadEvents seg mask) s).dev.out i = true ↔ mask &&& lutPos s.cfg i ≠ 0#8 := by
  rw [emit_loadEvents, selected, selLines_loaded h, bne_iff_ne]

/-- Settles O41: a table mask meets no mask of the table but itself. -/
theorem oneHotLoadLightsOnePosition : Obligations.OneHotLoadLightsOnePosition := by
  intro seg i j s hwf hlen
  refine ⟨_, exec_wrsr seg (lutPos s.cfg i) s, ?_⟩
  rw [emit_cfg, selected_emit_loadEvents hlen, lutPos_and_lutPos_ne_zero_iff hwf]

/-! ### ENCD and ENCP -/

/-- Settles O27: below 10 the digit has a table entry, and from 10 on the fault sets bit 1 of FLT. -/
theorem encdSetsSegOrFaults : Obligations.EncdSetsSegOrFaults := by
  intro d s
  constructor
  · intro hd
    rw [exec_encd_of_lt s hd, lutSeg_of_lt]
  · exact exec_encd_of_ge s

/-- Settles O28: the mask's one bit is the power of two the constraint gives. -/
theorem encpSetsMask : Obligations.EncpSetsMask := by
  refine fun i s => ⟨exec_encp i s, fun hwf => ?_⟩
  obtain ⟨k, hk, hki⟩ := exists_lutPos_eq_twoPow hwf i
  have hk8 : k < 8 := by omega
  refine ⟨k, hk, fun j _ => ?_⟩
  calc (lutPos s.cfg i).getLsbD j
    _ = (decide (k < 8) && decide (k = j)) := by rw [hki, BitVec.getLsbD_twoPow]
    _ = decide (j = k) := by simp [hk8, eq_comm]

/-! ### DPCLR -/

/-- Clearing the decimal point's bit keeps the bits below it (R126). -/
theorem getLsbD_dpClear (b : Byte) {k : Nat} (hk : k < 8) : (dpClear b).getLsbD k = (b.getLsbD k && decide (k < 7)) := by
  have hmask : ∀ j < 8, (0x7F#8).getLsbD j = decide (j < 7) := by decide
  rw [dpClear, BitVec.getLsbD_and, hmask k hk]

theorem getLsbD_dpClear_seven (b : Byte) : (dpClear b).getLsbD 7 = false := by
  rw [getLsbD_dpClear b (by decide)]
  exact Bool.and_false _

theorem getLsbD_dpClear_of_lt (b : Byte) {k : Nat} (hk : k < 7) : (dpClear b).getLsbD k = b.getLsbD k := by
  rw [getLsbD_dpClear b (by omega), decide_eq_true hk, Bool.and_true]

theorem dpClear_dpClear (b : Byte) : dpClear (dpClear b) = dpClear b := by
  rw [dpClear, dpClear, BitVec.and_assoc, BitVec.and_self]

/-- Settles O29, bit by bit; the second DPCLR is `dpClear_dpClear`. -/
theorem dpclrClearsBitSeven : Obligations.DpclrClearsBitSeven := by
  refine fun s => ⟨dpClear s.seg, exec_dpclr s, getLsbD_dpClear_seven s.seg,
    fun _ hk => getLsbD_dpClear_of_lt s.seg hk, ?_⟩
  rw [exec_dpclr, dpClear_dpClear]

/-- Settles O30: the table's patterns have the point dark, and DPCLR changes no other bit. -/
theorem encdThenDpclrLightsOnlyThePoint : Obligations.EncdThenDpclrLightsOnlyThePoint := fun _ s hwf hd =>
  ⟨_, _, exec_encd_of_lt s hd, exec_dpclr _, getLsbD_lutSeg_seven hwf hd, getLsbD_dpClear_seven _,
    fun _ hk => getLsbD_dpClear_of_lt _ hk⟩

end Sys2Proof.Machine
end

section
/-! PROOFS. The refresh engine (spec/42_refresh.md): the digits of a value (R141, R142), PHASE as a whole next state and
a run of PHASEs (R144 to R149), and the values a frame latches, with what they light (R145, R151, R152). -/

namespace Sys2Proof.Machine

/-! ### The digits -/

/-- The four digits of a value, as numbers (R141). -/
theorem toNat_digitAt_decompDigits (v : Nat) :
    (digitAt (decompDigits v) 0#2).toNat = v / 1000 % 10 ∧ (digitAt (decompDigits v) 1#2).toNat = v / 100 % 10 ∧
      (digitAt (decompDigits v) 2#2).toNat = v / 10 % 10 ∧ (digitAt (decompDigits v) 3#2).toNat = v % 10 := by
  rw [decompDigits_eq]
  exact ⟨toNat_ofNat_mod_ten _, toNat_ofNat_mod_ten _, toNat_ofNat_mod_ten _, toNat_ofNat_mod_ten _⟩

/-- Settles O43, by the digits in closed form. -/
theorem digitsSpellTheValue : Obligations.DigitsSpellTheValue := by
  refine fun v => ⟨digitAt_decompDigits_le v, ?_⟩
  obtain ⟨h0, h1, h2, h3⟩ := toNat_digitAt_decompDigits v
  rw [h0, h1, h2, h3]
  omega

/-- Settles O44, as O55 where VAL has room for the whole operand. -/
theorem decompSplitsItsValue : Obligations.DecompSplitsItsValue := by
  intro v s hw
  obtain ⟨x, hexec, -, -, hx⟩ := decompCutsToTheWidthOfVal v s
  rwa [hx hw] at hexec

/-! ### The refresh tick -/

/-- A refresh tick runs the command REFRESH_OP names (R154). -/
theorem step_of_tick {s : State} {rest : List Stimulus} (he : s.env = .tick :: rest) :
    step s = exec (refreshInstr s.cfg.refreshOp) { s with env := rest } :=
  (step_of_env_cons he).trans (runWord_of_decode _ (decodeOfEncodeIsTheCommand _))

/-- Settles O12, by `step_of_tick` for either value of REFRESH_OP. -/
theorem tickRunsTheRefreshCommand : Obligations.TickRunsTheRefreshCommand := by
  intro s rest he
  rw [step_of_tick he]
  exact ⟨fun hop => by rw [hop, refreshInstr], fun hop => by rw [hop, refreshInstr]⟩

/-! ### One PHASE -/

/-- PHASE as a change of fields (R144, R147). -/
theorem exec_phase_eq (s : State) :
    exec .phase s = .next { s with
      val := lowBits s.cfg.wVal (value s.inputs)
      dig := portDigits s
      seg := drawPattern s.cfg s.ph (digitAt (portDigits s) s.ph)
      mask := lutPos s.cfg s.ph
      ph := nextPosition s.cfg s.ph
      lines := ⟨true, true, (lutPos s.cfg s.ph).getLsbD 0⟩
      dev := drawnDevice s.cfg (portDigits s) s.ph s.dev
      events := s.events ++ drawnEvents s.cfg (portDigits s) s.inputs.showVolt s.ph } := by
  rw [exec_phase, drawPhase_eq]
  rfl

/-- Settles O45: CHAIN and OUT both take the drawn position's chain, of which 16 bits are its two bytes. -/
theorem phaseDrawsThePositionOfPh : Obligations.PhaseDrawsThePositionOfPh := by
  refine fun s => ⟨drawnChain s.cfg (portDigits s) s.dev.chain s.ph, ?_, rfl,
    fun hlen => drawnChain_of_chainLen hlen (portDigits s) s.dev.chain s.ph⟩
  rw [exec_phase_eq, drawnEvents, ← List.append_assoc]
  rfl

/-! ### A run of PHASEs -/

/-- The positions that k PHASEs draw from PH = 0 (R148); `runSteps_phases` ties them to a run. -/
def phasePositions (c : Config) (k : Nat) : List PosIx :=
  (List.range k).map fun j => BitVec.ofNat 2 (j % c.numDigits)

theorem phasePositions_succ (c : Config) (k : Nat) :
    phasePositions c (k + 1) = phasePositions c k ++ [BitVec.ofNat 2 (k % c.numDigits)] := by
  rw [phasePositions, List.range_succ, List.map_append, List.map_singleton, phasePositions]

/-- As many PHASEs as there are positions draw those of a frame. -/
theorem phasePositions_numDigits (c : Config) : phasePositions c c.numDigits = framePositions c :=
  List.map_congr_left fun _ hj => by rw [Nat.mod_eq_of_lt (List.mem_range.1 hj)]

/-- PH's two bits hold any number modulo NUM_DIGITS. -/
theorem toNat_ofNat_mod_numDigits {c : Config} (h : c.WellFormed) (k : Nat) :
    (BitVec.ofNat 2 (k % c.numDigits)).toNat = k % c.numDigits := by
  obtain ⟨-, -, -, -, hpos, hle, -⟩ := h
  have hlt : k % c.numDigits < c.numDigits := Nat.mod_lt _ hpos
  exact Nat.mod_eq_of_lt (show k % c.numDigits < 2 ^ 2 by omega)

/-- The position after the one that PHASE number k draws is the one that the next PHASE draws (R147). -/
theorem nextPosition_ofNat_mod {c : Config} (h : c.WellFormed) (k : Nat) :
    nextPosition c (BitVec.ofNat 2 (k % c.numDigits)) = BitVec.ofNat 2 ((k + 1) % c.numDigits) := by
  rw [nextPosition, toNat_ofNat_mod_numDigits h, Nat.mod_add_mod]

/-- Setting the value a state holds already, with its digits, changes nothing. -/
theorem setValue_of_held {v : Nat} {s : State} (hval : s.val = lowBits s.cfg.wVal v)
    (hdig : s.dig = decompDigits s.val) : setValue v s = s := by
  rw [setValue, ← hval, ← hdig]

/-- PHASE at any PH and environment, as the drawing of one position. -/
theorem exec_phase_withPhEnv (s : State) (q : PosIx) (e : List Stimulus) :
    exec .phase { s with ph := q, env := e } =
      .next { drawPhase q s.inputs.showVolt (setValue (value s.inputs) s) with
        ph := nextPosition s.cfg q, env := e } := rfl

/-- The state once positions are drawn in turn of the value in the ports; `exec_frame_eq_drawn` and `runSteps_phases`
tie it to FRAME and to a run of PHASEs. -/
def drawn (ps : List PosIx) (s : State) : State :=
  ps.foldl (fun t p => drawPhase p s.inputs.showVolt t) (setValue (value s.inputs) s)

theorem drawn_concat (ps : List PosIx) (p : PosIx) (s : State) :
    drawn (ps ++ [p]) s = drawPhase p s.inputs.showVolt (drawn ps s) := List.foldl_concat ..

/-- Drawing writes neither the parameters nor PH nor the ports, and leaves VAL and DIG as `setValue` made them. -/
theorem drawn_keep (ps : List PosIx) (s : State) :
    (drawn ps s).cfg = s.cfg ∧ (drawn ps s).ph = s.ph ∧ (drawn ps s).inputs = s.inputs ∧
      (drawn ps s).val = lowBits s.cfg.wVal (value s.inputs) ∧ (drawn ps s).dig = portDigits s := by
  obtain ⟨hcfg, hdig, hval, hph, -, hin, -⟩ := drawPhases_keep ps s.inputs.showVolt (setValue (value s.inputs) s)
  exact ⟨hcfg, hph, hin, hval, hdig⟩

theorem exec_frame_eq_drawn (s : State) (e : List Stimulus) :
    exec .frame { s with env := e } = .next { drawn (framePositions s.cfg) s with env := e } :=
  congrArg Host.Outcome.next (drawPhases_withEnv (framePositions s.cfg) _ (setValue (value s.inputs) s) e)

/-- A PHASE after positions drawn from the same ports draws one position more of the same value. -/
theorem exec_phase_of_drawn (ps : List PosIx) (q : PosIx) (s : State) (e : List Stimulus) :
    exec .phase { drawn ps s with ph := q, env := e } =
      .next { drawn (ps ++ [q]) s with ph := nextPosition s.cfg q, env := e } := by
  obtain ⟨hcfg, -, hin, hval, hdig⟩ := drawn_keep ps s
  have hheld : setValue (value s.inputs) (drawn ps s) = drawn ps s :=
    setValue_of_held (by rw [hval, hcfg]) (by rw [hdig, hval, portDigits])
  rw [exec_phase_withPhEnv, hin, hcfg, hheld, drawn_concat]

/-- A run of PHASEs from PH = 0 draws its positions in turn, all of one value of the ports (R148). -/
theorem runSteps_phases (k : Nat) {s : State} {rest : List Stimulus} (hwf : s.cfg.WellFormed) (hph : s.ph = 0#2)
    (he : s.env = List.replicate (k + 1) (.command (encode .phase)) ++ rest) :
    runSteps (k + 1) s =
      .next { drawn (phasePositions s.cfg (k + 1)) s with
        ph := BitVec.ofNat 2 ((k + 1) % s.cfg.numDigits), env := rest } := by
  induction k generalizing rest with
  | zero =>
    have hfirst : exec .phase { s with env := rest } =
        exec .phase { drawn [] s with ph := 0#2, env := rest } := by rw [← hph]; rfl
    rw [runSteps_of_encode 0 he (hfirst.trans (exec_phase_of_drawn [] 0#2 s rest)), ← nextPosition_ofNat_mod hwf 0,
      Nat.zero_mod]
    rfl
  | succ k ih =>
    rw [List.replicate_succ', List.append_assoc] at he
    rw [runSteps_add_of_next 1 (ih he), phasePositions_succ s.cfg (k + 1), ← nextPosition_ofNat_mod hwf (k + 1)]
    exact runSteps_of_encode 0 rfl (exec_phase_of_drawn _ _ s rest)

/-- Settles O47: the last position of the run gives MASK. -/
theorem successivePhasesCyclePh : Obligations.SuccessivePhasesCyclePh := by
  intro k s rest hwf hph he
  refine ⟨_, runSteps_phases k hwf hph he, rfl, toNat_ofNat_mod_numDigits hwf (k + 1), ?_⟩
  obtain ⟨hcfg, -⟩ := drawn_keep (phasePositions s.cfg k) s
  rw [phasePositions_succ, drawn_concat, drawPhase_mask, hcfg]
  rfl

/-- Settles O48: NUM_DIGITS PHASEs draw a frame's positions and bring PH back to 0. -/
theorem phasesOfAFrameEqualOneFrame : Obligations.PhasesOfAFrameEqualOneFrame := by
  intro s rest hwf hph he
  obtain ⟨k, hk⟩ : ∃ k, s.cfg.numDigits = k + 1 := by
    obtain ⟨-, -, -, -, hpos, -⟩ := hwf
    exact Nat.exists_eq_add_of_le' hpos
  have hrun := runSteps_phases (rest := rest) k hwf hph (hk ▸ he)
  obtain ⟨-, hkeep, -⟩ := drawn_keep (framePositions s.cfg) s
  rw [← hk, phasePositions_numDigits, Nat.mod_self, ← hph, ← hkeep] at hrun
  exact hrun.trans (exec_frame_eq_drawn s rest).symm

/-! ### What a frame latches -/

/-- Drawing one position latches its chain once. -/
theorem latchedValues_drawnEvents_one (c : Config) (ds : Vector DigitReg 4) (sv : Bool) (p : PosIx) (l : Lines)
    (d : Device) : latchedValues c.chainLen (drawnEvents c ds sv p) l d = [drawnChain c ds d.chain p] := by
  rw [drawnEvents, latchedValues_append, latchedValues_sampleEvents, latchedValues_loadEvents, deviceAfter_sampleEvents]
  rfl

/-- Each position drawn latches once, its two bytes at the low end of the chain. -/
theorem forall₂_latchedValues_drawnEvents (c : Config) (ds : Vector DigitReg 4) (sv : Bool) (ps : List PosIx)
    (l : Lines) (d : Device) :
    List.Forall₂ (fun out p => ∃ x, out = drawnChain c ds x p)
      (latchedValues c.chainLen (ps.flatMap (drawnEvents c ds sv)) l d) ps := by
  induction ps generalizing l d with
  | nil => exact .nil
  | cons p ps ih =>
    rw [List.flatMap_cons, latchedValues_append, latchedValues_drawnEvents_one]
    exact .cons ⟨d.chain, rfl⟩ (ih _ _)

/-- The point's bit of a drawn pattern is cleared at DP_INDEX alone (R121, R144). -/
theorem getLsbD_drawPattern_seven {c : Config} (h : c.WellFormed) (p : PosIx) {d : DigitReg} (hd : d.toNat < 10) :
    (drawPattern c p d).getLsbD 7 = false ↔ p = c.dpIndex := by
  by_cases hp : p = c.dpIndex
  · rw [drawPattern_of_eq hp]
    exact iff_of_true (getLsbD_dpClear_seven _) hp
  · rw [drawPattern_of_ne hp, getLsbD_lutSeg_seven h hd]
    exact iff_of_false Bool.true_eq_false.mp hp

/-- A drawn position lights the point there alone, and there only if it is DP_INDEX (R145, R182). -/
theorem pointLit_drawnChain {c : Config} (h : c.WellFormed) (hlen : 16 ≤ c.chainLen) (v x : Nat) (q p : PosIx) :
    pointLit c (drawnChain c (decompDigits v) x q) p = true ↔ p = c.dpIndex ∧ q = c.dpIndex := by
  have hd : (digitAt (decompDigits v) q).toNat < 10 := Nat.lt_succ_of_le (digitAt_decompDigits_le v q)
  rw [pointLit, selected, drawnChain, selLines_loaded hlen, segLines_loaded hlen, Bool.and_eq_true, bne_iff_ne,
    lutPos_and_lutPos_ne_zero_iff h, Bool.not_eq_true', getLsbD_drawPattern_seven h q hd]
  exact and_congr_left fun hq => by rw [hq]

theorem framePositions_getElem (c : Config) {k : Nat} (h : k < (framePositions c).length) :
    (framePositions c)[k] = BitVec.ofNat 2 k := by
  simp [framePositions]

/-- With at most four positions, a position and its number name each other. -/
theorem ofNat_eq_dpIndex_iff {c : Config} (h : c.WellFormed) {k : Nat} (hk : k < c.numDigits) :
    BitVec.ofNat 2 k = c.dpIndex ↔ k = c.dpIndex.toNat := by
  obtain ⟨-, -, -, -, -, hle, -⟩ := h
  rw [← BitVec.toNat_inj, BitVec.toNat_ofNat, Nat.mod_eq_of_lt (show k < 2 ^ 2 by omega)]

/-- Settles O49, by `pointLit_drawnChain` for the position a PHASE draws and for each that a FRAME draws. -/
theorem pointIsLitAtDpIndexOnly : Obligations.PointIsLitAtDpIndexOnly := by
  intro s hwf hlen
  refine ⟨⟨_, exec_phase_eq s, pointLit_drawnChain hwf hlen _ _ s.ph⟩, ?_⟩
  have hframe : (framePositions s.cfg).length = s.cfg.numDigits := by simp [framePositions]
  obtain ⟨t, ht, hes⟩ := exec_drivenBy .frame s
  obtain ⟨hlength, hget⟩ := List.forall₂_iff_get.1 (forall₂_latchedValues_drawnEvents s.cfg (portDigits s)
    s.inputs.showVolt (framePositions s.cfg) s.lines s.dev)
  refine ⟨t, commandEvents .frame s, ht, hes.events, hlength.trans hframe, fun k out hk p => ?_⟩
  obtain ⟨hklt, rfl⟩ := List.getElem?_eq_some_iff.1 hk
  have hkn : k < (framePositions s.cfg).length := hlength ▸ hklt
  obtain ⟨x, hx⟩ := hget k hklt hkn
  rw [List.get_eq_getElem, List.get_eq_getElem, framePositions_getElem] at hx
  have hpoint := pointLit_drawnChain hwf hlen (lowBits s.cfg.wVal (value s.inputs)) x (BitVec.ofNat 2 k) p
  rw [ofNat_eq_dpIndex_iff hwf (hframe ▸ hkn)] at hpoint
  rwa [← portDigits, ← hx] at hpoint

/-- At R6's values a FRAME latches the four digits of the ports' value, the point lit at position 1. -/
theorem exec_frame_latches {s : State} (hsrc : s.cfg.SourceValues) (hv : value s.inputs < 2 ^ 14) :
    ∃ t es, exec .frame s = .next t ∧ t.events = s.events ++ es ∧
      latchedValues s.cfg.chainLen es s.lines s.dev =
        [(lutSeg s.cfg (BitVec.ofNat 4 (value s.inputs / 1000 % 10)) ++ lutPos s.cfg 0#2).toNat,
         (dpClear (lutSeg s.cfg (BitVec.ofNat 4 (value s.inputs / 100 % 10))) ++ lutPos s.cfg 1#2).toNat,
         (lutSeg s.cfg (BitVec.ofNat 4 (value s.inputs / 10 % 10)) ++ lutPos s.cfg 2#2).toNat,
         (lutSeg s.cfg (BitVec.ofNat 4 (value s.inputs % 10)) ++ lutPos s.cfg 3#2).toNat] := by
  obtain ⟨hnum, hdp, hlen, -, -, -, hwVal⟩ := hsrc
  obtain ⟨t, ht, hes⟩ := exec_drivenBy .frame s
  refine ⟨t, commandEvents .frame s, ht, hes.events, ?_⟩
  have h0 : (0#2 : PosIx) ≠ s.cfg.dpIndex := by rw [hdp]; decide
  have h2 : (2#2 : PosIx) ≠ s.cfg.dpIndex := by rw [hdp]; decide
  have h3 : (3#2 : PosIx) ≠ s.cfg.dpIndex := by rw [hdp]; decide
  rw [commandEvents, latchedValues_drawnEvents hlen, framePositions_of_four hnum, portDigits, hwVal, lowBits_of_lt hv,
    decompDigits_eq, List.map_cons, List.map_cons, List.map_cons, List.map_singleton,
    drawPattern_of_ne h0, drawPattern_of_eq hdp.symm, drawPattern_of_ne h2, drawPattern_of_ne h3]
  rfl

/-- Settles O50: the digits of 100 * MINUTES + SECONDS are those of the two ports. -/
theorem timeModeFrameShowsMinutesAndSeconds : Obligations.TimeModeFrameShowsMinutesAndSeconds := by
  intro s hsrc hmode hmin hsec
  have hval := value_of_time hmode
  have h0 : value s.inputs / 1000 % 10 = s.inputs.minutes / 10 := by omega
  have h1 : value s.inputs / 100 % 10 = s.inputs.minutes % 10 := by omega
  have h2 : value s.inputs / 10 % 10 = s.inputs.seconds / 10 := by omega
  have h3 : value s.inputs % 10 = s.inputs.seconds % 10 := by omega
  have hframe := exec_frame_latches hsrc (show value s.inputs < 2 ^ 14 by omega)
  rwa [h0, h1, h2, h3] at hframe

/-- Settles O51: a code of at most 330 has the digits 0, v, t and h. -/
theorem voltageModeFrameShowsTheCode : Obligations.VoltageModeFrameShowsTheCode := by
  intro s v t h hsrc hmode hcode ht hh hsum
  have hval := value_of_volts hmode
  have h0 : value s.inputs / 1000 % 10 = 0 := by omega
  have h1 : value s.inputs / 100 % 10 = v := by omega
  have h2 : value s.inputs / 10 % 10 = t := by omega
  have h3 : value s.inputs % 10 = h := by omega
  have hframe := exec_frame_latches hsrc (show value s.inputs < 2 ^ 14 by omega)
  rwa [h0, h1, h2, h3] at hframe

end Sys2Proof.Machine
end

section
/-! PROOFS. Exceptions (spec/60_exceptions.md): the cause table and runs without a fault (R170 to R173), reset presented
with a command (R174), the idle block (R187), and what a load of any two bytes lights (R181, R182). -/

namespace Sys2Proof.Machine

/-! ### The cause table -/

/-- A command other than ENCD of a digit 10 to 15 raises no fault (R172), and takes nothing from the environment. -/
theorem exec_keeps_flt {i : Instr} (s : State) (hi : ∀ d : DigitReg, i = .encd d → d.toNat < 10) :
    ∃ t, exec i s = .next t ∧ t.flt = s.flt ∧ t.env = s.env := by
  by_cases hencd : ∃ d, i = .encd d
  · obtain ⟨d, rfl⟩ := hencd
    exact ⟨_, exec_encd_of_lt s (hi d rfl), rfl, rfl⟩
  · obtain ⟨t, ht, -, -, henv, -, -, -, -, hflt, -⟩ := eachRegisterHasItsWriters i s
    exact ⟨t, ht, hflt fun d hd => hencd ⟨d, hd⟩, henv⟩

/-- Settles O19: an illegal word, ENCD of a digit 10 to 15 and any other command exclude each other. -/
theorem causeTableByCommand : Obligations.CauseTableByCommand := by
  intro s w rest he
  cases hw : decode w with
  | error e => exact ⟨_, step_of_illegal he hw, fun _ _ => rfl, nofun, nofun⟩
  | ok i =>
    rw [stepRunsTheDecodedCommand s w rest i he hw]
    by_cases hi : ∀ d : DigitReg, i = .encd d → d.toNat < 10
    · obtain ⟨t, ht, hflt, -⟩ := exec_keeps_flt { s with env := rest } hi
      exact ⟨t, ht, nofun, fun d hd hge => absurd (hi d (Except.ok.inj hd)) (Nat.not_lt.2 hge), fun _ _ _ => hflt⟩
    · push Not at hi
      obtain ⟨d, rfl, hge⟩ := hi
      exact ⟨_, exec_encd_of_ge _ hge, nofun, fun _ _ _ => rfl, fun i hd hlt =>
        absurd (hlt d (Except.ok.inj hd).symm) (Nat.not_lt.2 hge)⟩

/-- Settles O21, by induction on the commands: none of them changes FLT. -/
theorem runOfUnfaultingCommandsIsCorrect : Obligations.RunOfUnfaultingCommandsIsCorrect := by
  intro is
  induction is with
  | nil => exact fun s rest _ he h => ⟨s, runSteps_zero s, h, he⟩
  | cons i is ih =>
    intro s rest hdigits he h
    obtain ⟨u, hu, hflt, henv⟩ := exec_keeps_flt (i := i)
      { s with env := is.map (fun j => .command (encode j)) ++ rest } fun d hd => hdigits d (by simp [hd])
    rw [List.length_cons, runSteps_of_encode is.length he hu]
    exact ih u rest (fun d hd => hdigits d (List.mem_cons_of_mem i hd)) henv (hflt.trans h)

/-! ### Reset with a command, and no stimulus -/

/-- Settles O4: reset neither reads nor writes what the environment does next, so the word may be put there after it
or before it. -/
theorem resetTakesEffectBeforeItsCommand : Obligations.ResetTakesEffectBeforeItsCommand := fun _ _ _ he =>
  ⟨_, step_of_env_cons he, rfl, step_withEnv_cons _ _ _⟩

/-- Settles O14: `step` with an empty list of stimuli. -/
theorem idleStepKeepsEverything : Obligations.IdleStepKeepsEverything := fun _ => step_of_env_nil

/-! ### What a load lights -/

/-- After a load, a segment line lights a position where the mask selects it and the line's bit of the first byte is 0:
the lines are active low (R107, R181, R182). -/
theorem lit_emit_loadEvents {s : State} (h : 16 ≤ s.cfg.chainLen) (seg mask : Byte) (i : PosIx) (k : Nat) :
    (selected s.cfg (emit (loadEvents seg mask) s).dev.out i &&
      !(segLines (emit (loadEvents seg mask) s).dev.out).getLsbD k) = true ↔
      mask &&& lutPos s.cfg i ≠ 0#8 ∧ seg.getLsbD k = false := by
  have hseg : segLines (emit (loadEvents seg mask) s).dev.out = seg := by
    rw [emit_loadEvents, segLines_loaded h]
  rw [hseg, Bool.and_eq_true, selected_emit_loadEvents h, Bool.not_eq_true']

/-- Settles O40: a segment's line is the one SEG_MAP gives it, and the decimal point's is line 7. -/
theorem litSegmentsFollowTheLoadedBytes : Obligations.LitSegmentsFollowTheLoadedBytes := fun seg mask s hlen =>
  ⟨_, exec_wrsr seg mask s, fun i =>
    ⟨selected_emit_loadEvents hlen seg mask i,
      fun x => lit_emit_loadEvents hlen seg mask i (segBit s.cfg x),
      lit_emit_loadEvents hlen seg mask i 7⟩⟩

end Sys2Proof.Machine
end

section
/-! PROOFS. Reset at power-up (R200, R202), and how many events each command appends (R213). -/

namespace Sys2Proof.Machine

/-- Settles O2: reset sets the registers and the lines (O1); the parameters, the ports and, LATCH being at 1, the
device are kept, and no event precedes its three. -/
theorem powerUpResetGivesStateReset : Obligations.PowerUpResetGivesStateReset := by
  intro s hcfg hevents henv hinputs hdev hlatch
  rw [resetSetsTheValuesOfR40 s [] henv, if_pos hlatch, hcfg, hevents, hinputs, hdev]
  rfl

theorem framePositions_length (c : Config) : (framePositions c).length = c.numDigits := by
  rw [framePositions, List.length_map, List.length_range]

theorem length_sampleEvents (c : Config) (p : PosIx) (sv : Bool) :
    (sampleEvents c p sv).length = (sampleEvents c p sv).count .sampleReq := by
  unfold sampleEvents; split <;> rfl

/-- Drawing positions appends a load of 50 events for each (R103), and its sample requests. -/
theorem length_flatMap_drawnEvents (c : Config) (ds : Vector DigitReg 4) (sv : Bool) (ps : List PosIx) :
    (ps.flatMap (drawnEvents c ds sv)).length =
      50 * ps.length + (ps.flatMap (drawnEvents c ds sv)).count .sampleReq := by
  induction ps with
  | nil => rfl
  | cons p ps ih =>
    rw [List.flatMap_cons, List.length_append, List.count_append, ih, drawnEvents, List.length_append,
      List.count_append, loadEvents_length, count_sampleReq_loadEvents, length_sampleEvents, List.length_cons]
    omega

/-- Settles O25, from the events of each command: a frame comes to DP_INDEX once. -/
theorem eventCountOfEachCommand : Obligations.EventCountOfEachCommand := by
  intro i s hwf
  obtain ⟨t, ht, hes⟩ := exec_drivenBy i s
  refine ⟨t, commandEvents i s, ht, hes.events, ?_⟩
  cases i with
  | encd _ => rfl
  | encp _ => rfl
  | dpclr => rfl
  | decomp _ => rfl
  | shout b => exact serBits_length b
  | wrsr seg mask => exact loadEvents_length seg mask
  | load => exact loadEvents_length s.seg s.mask
  | phase =>
    rw [commandEvents, drawnEvents, List.length_append, loadEvents_length, sampleEvents]
    split <;> rfl
  | frame =>
    rw [commandEvents, length_flatMap_drawnEvents, count_sampleReq_drawnEvents, count_dpIndex_framePositions hwf,
      framePositions_length]

end Sys2Proof.Machine
end
